-- ==== Sys2Proof/Word.lean ====
section
/-! DEFINITION. The data word (00_scope.md R5). An `Addr` of R5 is a mathematical integer, negative and out-of-range
ones included (D3): Lean's `Int`. -/

namespace Sys2Proof

/-- A `Word` of R5, as the 32-bit bus carries it: two's complement, bit 31 the sign. Its value is `BitVec.toInt`. -/
abbrev Word := BitVec 32

end Sys2Proof
end

