-- ==== Sys2Proof/Config.lean ====
section
/-! DEFINITION. The parameters of rule R4 (00_scope.md). Those with a fixed value are constants; the open ones are
fields of `Params` (and the two capacities fields of the machine's state, as R10 places them), so that a statement
about every state covers every value. -/

namespace Sys2Proof

/-- `HIT_LATENCY` of R4: "1 per hit". UNVERIFIED literal of the source (D7), notes/assumptions/20. -/
def hitLatency : Nat := 1

/-- `MISS_LATENCY` of R4: "10 per miss". UNVERIFIED literal of the source (D7), notes/assumptions/20. -/
def missLatency : Nat := 10

/-- `BRANCH_BASE` of R4 and R155: what the BNE target is relative to. -/
inductive BranchBase where
  | self   -- the address of the BNE itself
  | next   -- the address after it
deriving DecidableEq, Repr

/-- A client register number, `0 ≤ i ≤ 31` (R30, R82). -/
abbrev Reg := Fin 32

/-- The construction parameters of R4 that no rule places in a group of the state. -/
structure Params where
  /-- `ENABLE_AT_RESET` (R201, D9). -/
  enableAtReset : Bool
  /-- `INSTR_SIZE` (R33, D26): `pc` units per instruction, positive. -/
  instrSize : Nat
  /-- `BRANCH_BASE` (R155, D28). -/
  branchBase : BranchBase
  /-- `RA_INDEX` (R32, D27): 1 to 31. -/
  raIndex : Reg
  /-- `REG_RESET` (R36, D35): what the registers hold at reset; entry 0 is not used. -/
  regReset : Vector Word 32
deriving DecidableEq, Repr

/-- R4: `INSTR_SIZE` is a positive integer and `RA_INDEX` is 1..31. -/
abbrev Params.wf (p : Params) : Prop := 0 < p.instrSize ∧ p.raIndex ≠ 0

/-- The parameters `State.reset` is built with: those of 95_test_vectors.md ("Unless a vector says otherwise").
DESIGN CHOICE, unsafe: notes/assumptions/2, 3 and 4. -/
def Params.default : Params :=
  { enableAtReset := true, instrSize := 4, branchBase := .self, raIndex := 31, regReset := Vector.replicate 32 0#32 }

/-- `MEM_CAPACITY` of `State.reset`. DESIGN CHOICE, unsafe: notes/assumptions/2. -/
def defaultMemCapacity : Nat := 16

/-- `CACHE_CAPACITY` of `State.reset`. DESIGN CHOICE, unsafe: notes/assumptions/2. -/
def defaultCacheCapacity : Nat := 2

end Sys2Proof
end

