-- ==== Sys2Proof/Syntax.lean ====
section
/-! DEFINITION. The instructions, one constructor per row of spec/opcode_table.json, and the two raw forms they
arrive in: a request on the command port (30_encoding.md R70) and a line of the client's text (R80). -/

namespace Sys2Proof

/-- Commands of the command port (R72 to R74) and the client's text instructions (R81). -/
inductive Instr where
  -- cache commands
  | cacheRead (addr : Int)
  | cacheWrite (addr : Int) (wdata : Word)
  -- the CACHE_CONTROL row, and the four rows it is decoded into by `code` (R74)
  | cacheControl (code : Int)
  | cacheControlDisable
  | cacheControlEnable
  | cacheControlFlush
  | cacheControlInvalid (code : Int)
  | syncWithMemory
  | cacheFlush
  | status
  -- backing-store commands
  | memRead (addr : Int)
  | memWrite (addr : Int) (wdata : Int)
  | memFlush
  | memResetToInitial
  -- reserved `cmd` values (R73)
  | reserved0
  | reserved7
  | reserved12
  | reserved13
  | reserved14
  | reserved15
  -- client instructions
  | add (rd rs rt : Reg)
  | addi (rd rs : Reg) (imm : Int)
  | sub (rd rs rt : Reg)
  | slt (rd rs rt : Reg)
  | bne (rs rt : Reg) (offset : Int)
  | j (target : Int)
  | jal (target : Int)
  | lw (rt : Reg) (offset : Int) (rs : Reg)
  | sw (rt : Reg) (offset : Int) (rs : Reg)
  | cache (code : Int)
  | halt
deriving DecidableEq, Repr

/-- A token of a text line. -/
abbrev Token := List Char

/-- One line of text, without its line end (R80, R87). -/
abbrev Line := List Char

/-- A request on the command port (R70). A field that a command does not use is ignored. -/
structure Request where
  cmd   : BitVec 4
  addr  : Int := 0
  wdata : Int := 0
  code  : Int := 0
deriving DecidableEq, Repr

/-- What the machine decodes: a request of the command port, or a line of the client's stream. -/
inductive Raw where
  | request (r : Request)
  | line (l : Line)
deriving DecidableEq, Repr

end Sys2Proof
end

