-- ==== Sys2Proof/WellFormed.lean ====
section
/-! DEFINITION. Which terms of `Instr` stand for an instruction. Register numbers and data words are in range by
their types; what is left to check is the code of the CACHE_CONTROL.INVALID row. -/

namespace Sys2Proof

/-- R74: the three legal control codes. -/
abbrev isControlCode (c : Int) : Prop := c = 0 ∨ c = 1 ∨ c = 2

/-- R74: the row of the invalid codes takes "any other integer" than 0, 1, 2. Every other constructor admits
every operand. -/
def Instr.wellFormed (i : Instr) : Bool :=
  match i with
  | .cacheControlInvalid c => !decide (isControlCode c)
  | _ => true

/-- The client's text instructions (R80). -/
def Instr.isClient (i : Instr) : Bool :=
  match i with
  | .cacheRead _ => false
  | .cacheWrite _ _ => false
  | .cacheControl _ => false
  | .cacheControlDisable => false
  | .cacheControlEnable => false
  | .cacheControlFlush => false
  | .cacheControlInvalid _ => false
  | .syncWithMemory => false
  | .cacheFlush => false
  | .status => false
  | .memRead _ => false
  | .memWrite _ _ => false
  | .memFlush => false
  | .memResetToInitial => false
  | .reserved0 => false
  | .reserved7 => false
  | .reserved12 => false
  | .reserved13 => false
  | .reserved14 => false
  | .reserved15 => false
  | .add _ _ _ => true
  | .addi _ _ _ => true
  | .sub _ _ _ => true
  | .slt _ _ _ => true
  | .bne _ _ _ => true
  | .j _ => true
  | .jal _ => true
  | .lw _ _ _ => true
  | .sw _ _ _ => true
  | .cache _ => true
  | .halt => true

end Sys2Proof
end

