-- ==== Sys2Proof/Decode.lean ====
section
/-! DEFINITION. Decoding and encoding: the command port's table (30_encoding.md R72 to R74), the client's text lines
(R80 to R86) and the lines of the initial-memory load (R87, R88). -/

namespace Sys2Proof

/-! ## Data words -/

/-- The range of R5: `-2^31 ≤ v ≤ 2^31-1`. -/
abbrev fitsWord (v : Int) : Prop := -2147483648 ≤ v ∧ v ≤ 2147483647

/-- The word of value `v`, when `v` is in range (R5). -/
def wordOfInt? (v : Int) : Option Word := if fitsWord v then some (BitVec.ofInt 32 v) else none

/-! ## The command port -/

/-- Why a line is no instruction. -/
inductive LineError where
  /-- R85: the first token of the line is no opcode. -/
  | unknownOperation (opcode : Token)
  /-- R86: operand count or shape mismatch. -/
  | malformedInstruction (line : Line)
deriving DecidableEq, Repr

/-- Why a request is no command of the port. -/
inductive RequestError where
  /-- R70, R102, D4: a CACHE_WRITE request whose `wdata` is no `Word`, "outside this interface". -/
  | wdataNotWord (wdata : Int)
deriving DecidableEq, Repr

/-- Why a raw form is no instruction. -/
inductive DecodeError where
  | line (e : LineError)
  | request (e : RequestError)
deriving DecidableEq, Repr

/-! The requests of R72, and those of the reserved values of R73. -/

def reqCacheRead (a : Int) : Request := { cmd := 0b0001#4, addr := a }
def reqCacheWrite (a : Int) (w : Word) : Request := { cmd := 0b0010#4, addr := a, wdata := w.toInt }
def reqCacheControl (c : Int) : Request := { cmd := 0b0011#4, code := c }
def reqSyncWithMemory : Request := { cmd := 0b0100#4 }
def reqCacheFlush : Request := { cmd := 0b0101#4 }
def reqStatus : Request := { cmd := 0b0110#4 }
def reqMemRead (a : Int) : Request := { cmd := 0b1000#4, addr := a }
def reqMemWrite (a : Int) (v : Int) : Request := { cmd := 0b1001#4, addr := a, wdata := v }
def reqMemFlush : Request := { cmd := 0b1010#4 }
def reqMemResetToInitial : Request := { cmd := 0b1011#4 }
def reqReserved (c : BitVec 4) : Request := { cmd := c }

/-- R74: CACHE_CONTROL is decoded further by its code. -/
def decodeControl (c : Int) : Instr :=
  if c = 0 then .cacheControlDisable
  else if c = 1 then .cacheControlEnable
  else if c = 2 then .cacheControlFlush
  else .cacheControlInvalid c

/-- R72, R73: the sixteen values of `cmd[3:0]`. -/
def decodeRequest (r : Request) : Except RequestError Instr :=
  match r.cmd.toNat with
  | 0 => .ok .reserved0
  | 1 => .ok (.cacheRead r.addr)
  | 2 =>
    match wordOfInt? r.wdata with
    | some w => .ok (.cacheWrite r.addr w)
    | none => .error (.wdataNotWord r.wdata)
  | 3 => .ok (decodeControl r.code)
  | 4 => .ok .syncWithMemory
  | 5 => .ok .cacheFlush
  | 6 => .ok .status
  | 7 => .ok .reserved7
  | 8 => .ok (.memRead r.addr)
  | 9 => .ok (.memWrite r.addr r.wdata)
  | 10 => .ok .memFlush
  | 11 => .ok .memResetToInitial
  | 12 => .ok .reserved12
  | 13 => .ok .reserved13
  | 14 => .ok .reserved14
  | _ => .ok .reserved15

/-! ## Tokens -/

/-- R80: the comma-separated tokens of a line. A line with `n` commas has `n + 1` tokens. -/
def splitTokens : Line → List Token
  | [] => [[]]
  | c :: cs =>
    if c = ',' then [] :: splitTokens cs
    else
      match splitTokens cs with
      | [] => [[c]]
      | t :: ts => (c :: t) :: ts

/-- The text before the first `sep` and the text after it. -/
def splitAtChar (sep : Char) : Token → Option (Token × Token)
  | [] => none
  | c :: cs =>
    if c = sep then some ([], cs)
    else
      match splitAtChar sep cs with
      | some (l, r) => some (c :: l, r)
      | none => none

/-- The value of a decimal digit. -/
def digitValue (c : Char) : Option Nat :=
  if 48 ≤ c.toNat ∧ c.toNat ≤ 57 then some (c.toNat - 48) else none

/-- Decimal digits read onto `acc`. -/
def parseDigits (acc : Nat) : Token → Option Nat
  | [] => some acc
  | c :: cs =>
    match digitValue c with
    | some d => parseDigits (acc * 10 + d) cs
    | none => none

/-- A decimal natural number: one digit or more. -/
def parseNat (t : Token) : Option Nat :=
  match t with
  | [] => none
  | c :: cs => parseDigits 0 (c :: cs)

/-- R83: a decimal integer with an optional leading `-`. -/
def parseInt (t : Token) : Option Int :=
  match t with
  | [] => none
  | c :: cs =>
    if c = '-' then (parseNat cs).map (fun n => -(n : Int))
    else (parseNat (c :: cs)).map (fun n => (n : Int))

/-- R82: the letter `R` and a decimal index, `0 ≤ n ≤ 31`. -/
def parseReg (t : Token) : Option Reg :=
  match t with
  | [] => none
  | c :: cs =>
    if c = 'R' then
      match parseNat cs with
      | some n => if h : n < 32 then some ⟨n, h⟩ else none
      | none => none
    else none

/-- R84: the memory operand `offset(Rs)`, split at `(` and `)`; nothing may follow the `)` (notes/assumptions/17). -/
def parseMem (t : Token) : Option (Int × Reg) :=
  match splitAtChar '(' t with
  | none => none
  | some (off, rest) =>
    match splitAtChar ')' rest with
    | some (reg, []) =>
      match parseInt off, parseReg reg with
      | some o, some r => some (o, r)
      | _, _ => none
    | _ => none

/-! ## Client lines -/

/-- R80: the eleven recognized opcodes. -/
inductive Opcode where
  | add | addi | sub | slt | bne | j | jal | lw | sw | cache | halt
deriving DecidableEq, Repr

/-- The opcode's token, exact upper case (R85, D36). -/
def Opcode.token : Opcode → Token
  | .add => ['A', 'D', 'D']
  | .addi => ['A', 'D', 'D', 'I']
  | .sub => ['S', 'U', 'B']
  | .slt => ['S', 'L', 'T']
  | .bne => ['B', 'N', 'E']
  | .j => ['J']
  | .jal => ['J', 'A', 'L']
  | .lw => ['L', 'W']
  | .sw => ['S', 'W']
  | .cache => ['C', 'A', 'C', 'H', 'E']
  | .halt => ['H', 'A', 'L', 'T']

def allOpcodes : List Opcode := [.add, .addi, .sub, .slt, .bne, .j, .jal, .lw, .sw, .cache, .halt]

/-- R85: the opcode whose token this is. -/
def opcodeOf (t : Token) : Option Opcode := allOpcodes.find? (fun o => decide (o.token = t))

def decodeRegs3 (k : Reg → Reg → Reg → Instr) (args : List Token) : Option Instr :=
  match args with
  | [a, b, c] =>
    match parseReg a, parseReg b, parseReg c with
    | some x, some y, some z => some (k x y z)
    | _, _, _ => none
  | _ => none

def decodeRegs2Int (k : Reg → Reg → Int → Instr) (args : List Token) : Option Instr :=
  match args with
  | [a, b, c] =>
    match parseReg a, parseReg b, parseInt c with
    | some x, some y, some n => some (k x y n)
    | _, _, _ => none
  | _ => none

def decodeInt (k : Int → Instr) (args : List Token) : Option Instr :=
  match args with
  | [a] =>
    match parseInt a with
    | some n => some (k n)
    | none => none
  | _ => none

def decodeRegMem (k : Reg → Int → Reg → Instr) (args : List Token) : Option Instr :=
  match args with
  | [a, b] =>
    match parseReg a, parseMem b with
    | some x, some (o, y) => some (k x o y)
    | _, _ => none
  | _ => none

/-- R81: the operand shapes, in the order written. -/
def decodeOperands (o : Opcode) (args : List Token) : Option Instr :=
  match o with
  | .add => decodeRegs3 .add args
  | .addi => decodeRegs2Int .addi args
  | .sub => decodeRegs3 .sub args
  | .slt => decodeRegs3 .slt args
  | .bne => decodeRegs2Int .bne args
  | .j => decodeInt .j args
  | .jal => decodeInt .jal args
  | .lw => decodeRegMem .lw args
  | .sw => decodeRegMem .sw args
  | .cache => decodeInt .cache args
  | .halt =>
    match args with
    | [] => some .halt
    | _ => none

/-- R85, R86, R178: the opcode is checked first, then the operands. -/
def decodeLine (l : Line) : Except LineError Instr :=
  match splitTokens l with
  | [] => .error (.malformedInstruction l)   -- no line splits into no token
  | op :: args =>
    match opcodeOf op with
    | none => .error (.unknownOperation op)
    | some o =>
      match decodeOperands o args with
      | some i => .ok i
      | none => .error (.malformedInstruction l)

/-- The decoder, total on every raw form. -/
def decode (raw : Raw) : Except DecodeError Instr :=
  match raw with
  | .request r =>
    match decodeRequest r with
    | .ok i => .ok i
    | .error e => .error (.request e)
  | .line l =>
    match decodeLine l with
    | .ok i => .ok i
    | .error e => .error (.line e)

/-! ## The encoder -/

/-- The decimal digits of `n` before `acc`; `fuel` bounds the number of digits. -/
def showDigits : Nat → Nat → Token → Token
  | 0, _, acc => acc
  | fuel + 1, n, acc =>
    if n < 10 then Char.ofNat (48 + n) :: acc
    else showDigits fuel (n / 10) (Char.ofNat (48 + n % 10) :: acc)

/-- A natural number in decimal, without leading zeros. -/
def showNat (n : Nat) : Token := showDigits (n + 1) n []

/-- An integer in decimal (R83). -/
def showInt (v : Int) : Token := if v < 0 then '-' :: showNat v.natAbs else showNat v.natAbs

/-- A register token (R82). -/
def showReg (r : Reg) : Token := 'R' :: showNat r.val

/-- A memory operand (R84). -/
def showMem (o : Int) (r : Reg) : Token := showInt o ++ '(' :: (showReg r ++ [')'])

/-- A line made of its tokens (R80). -/
def joinTokens : Token → List Token → Line
  | t, [] => t
  | t, u :: us => t ++ ',' :: joinTokens u us

/-- The raw form of an instruction: a request (R72) or a line (R81). -/
def encode (i : Instr) : Raw :=
  match i with
  | .cacheRead a => .request (reqCacheRead a)
  | .cacheWrite a w => .request (reqCacheWrite a w)
  | .cacheControl c => .request (reqCacheControl c)
  | .cacheControlDisable => .request (reqCacheControl 0)
  | .cacheControlEnable => .request (reqCacheControl 1)
  | .cacheControlFlush => .request (reqCacheControl 2)
  | .cacheControlInvalid c => .request (reqCacheControl c)
  | .syncWithMemory => .request reqSyncWithMemory
  | .cacheFlush => .request reqCacheFlush
  | .status => .request reqStatus
  | .memRead a => .request (reqMemRead a)
  | .memWrite a v => .request (reqMemWrite a v)
  | .memFlush => .request reqMemFlush
  | .memResetToInitial => .request reqMemResetToInitial
  | .reserved0 => .request (reqReserved 0b0000#4)
  | .reserved7 => .request (reqReserved 0b0111#4)
  | .reserved12 => .request (reqReserved 0b1100#4)
  | .reserved13 => .request (reqReserved 0b1101#4)
  | .reserved14 => .request (reqReserved 0b1110#4)
  | .reserved15 => .request (reqReserved 0b1111#4)
  | .add d s t => .line (joinTokens Opcode.add.token [showReg d, showReg s, showReg t])
  | .addi d s n => .line (joinTokens Opcode.addi.token [showReg d, showReg s, showInt n])
  | .sub d s t => .line (joinTokens Opcode.sub.token [showReg d, showReg s, showReg t])
  | .slt d s t => .line (joinTokens Opcode.slt.token [showReg d, showReg s, showReg t])
  | .bne s t n => .line (joinTokens Opcode.bne.token [showReg s, showReg t, showInt n])
  | .j n => .line (joinTokens Opcode.j.token [showInt n])
  | .jal n => .line (joinTokens Opcode.jal.token [showInt n])
  | .lw t o s => .line (joinTokens Opcode.lw.token [showReg t, showMem o s])
  | .sw t o s => .line (joinTokens Opcode.sw.token [showReg t, showMem o s])
  | .cache n => .line (joinTokens Opcode.cache.token [showInt n])
  | .halt => .line (joinTokens Opcode.halt.token [])

/-- The constructor that the decoder gives for `i`'s raw form: a CACHE_CONTROL request is decoded further by its
code (R74), so the CACHE_CONTROL row and its sub-rows name the same requests (notes/assumptions/8). -/
def Instr.canonical (i : Instr) : Instr :=
  match i with
  | .cacheControl c => decodeControl c
  | _ => i

/-! ## The initial-memory load format -/

/-- R88: a token made only of `0` and `1`, read as a base-2 unsigned integer. -/
def parseBits (acc : Nat) : Token → Option Nat
  | [] => some acc
  | c :: cs =>
    if c = '0' then parseBits (acc * 2) cs
    else if c = '1' then parseBits (acc * 2 + 1) cs
    else none

/-- R46, R88: an address token is binary when it is made only of `0` and `1`, and decimal otherwise (D21). -/
def parseAddrToken (t : Token) : Option Int :=
  match t with
  | [] => none
  | c :: cs =>
    match parseBits 0 (c :: cs) with
    | some n => some (n : Int)
    | none => parseInt (c :: cs)

/-- R87: a line `address,value`; `none` where a token is not numeric or the line has not two tokens (U17). -/
def decodeLoadLine (l : Line) : Option (Int × Int) :=
  match splitTokens l with
  | [a, v] =>
    match parseAddrToken a, parseInt v with
    | some x, some y => some (x, y)
    | _, _ => none
  | _ => none

/-! ## The opcode table's words -/

/-- The request whose bits the opcode table numbers: `cmd` is bits 3..0, the table gives the operand fields no bits,
and operand fields of zero bits are 0. Bits above bit 3 are not in the mask of any row (notes/assumptions/7). -/
def Request.ofTableWord (nbits w : Nat) : Request := { cmd := BitVec.ofNat 4 (w % 2 ^ nbits) }

/-- The instruction the decoder reads from a word of spec/opcode_table.json. The text rows have no bits in the table. -/
def decodeTableWord (nbits w : Nat) : Option Instr :=
  match decode (.request (Request.ofTableWord nbits w)) with
  | .ok i => some i
  | .error _ => none

end Sys2Proof
end

