-- ==== Sys2Proof/Machine/State.lean ====
section
/-! DEFINITION. The machine's state (10_state.md), the error kinds (60_exceptions.md), the reasons a step can stop,
and the state after reset. -/

namespace Sys2Proof.Machine

/-- What an `UnknownOperation` records (R170): "the opcode token or `cmd` value". -/
inductive OpName where
  | token (opcode : Token)
  | cmd (value : BitVec 4)
deriving DecidableEq, Repr

/-- The six error kinds of R170, each with the operand that R188 records in `info`. -/
inductive Error where
  | outOfBounds (address : Int)                -- R171
  | valueOutOfRange (value : Int)               -- R172
  | invalidControlCode (code : Int)             -- R173
  | unknownOperation (operation : OpName)       -- R174
  | malformedInstruction (line : Line)          -- R175
  | sourceNotFound (source : List Char)         -- R177
deriving DecidableEq, Repr

/-- The three ends of a run (R34, R161). -/
inductive HaltReason where
  | halt
  | exhausted
  | error (e : Error)
deriving DecidableEq, Repr

/-- A step that stops the machine. An error of R170 is NOT a fault of the model: it is taken, and the state goes on
(R187: a response; R179: the run has halted). -/
inductive Fault where
  /-- Raised by `fetch` when the run has ended, for the reason given, and no move of the host is left: "if halted: no
  step" (R150), `stuck` (U9). Safe: nothing can be proved of a next state that the spec does not give. -/
  | halted (reason : HaltReason)
deriving DecidableEq, Repr

/-- A step to which the spec gives no meaning ("a model refuses"). Each is safe: nothing is proved of a next state. -/
inductive Refusal where
  /-- Raised by an arm of `exec` that has no meaning yet. Safe. -/
  | notModelled (mnemonic : String)
  /-- Raised by ADD, ADDI, SUB (the result) and JAL (the return address) when the exact result is no `Word`: "has no
  defined behaviour and a model refuses the instruction" (R162, U11). Safe. -/
  | resultNotWord (value : Int)
  /-- Raised by `fetch` when `pc` is negative or no multiple of `INSTR_SIZE`: "no defined behaviour (a model refuses)"
  (R150, U12). Safe. -/
  | pcUndefined (pc : Int)
  /-- Raised by `fetch` for a CACHE_WRITE request whose value is no `Word`: "outside this interface and a model refuses
  it" (R102, U5). Safe. -/
  | wdataNotWord (wdata : Int)
  /-- Raised by `boot` for a line of the initial load that does not split into two readable tokens: "the load is
  refused" (U17). Safe. -/
  | loadLineUnreadable (line : Line)
deriving DecidableEq, Repr

/-- One listed word of the backing store: its address and its value. The store is word addressed and has no byte
view (R40, R54; notes/assumptions/1). -/
abbrev Cell := Nat × Word

/-- The backing store (R11, R12): `MEM_CAPACITY`, `M` and `SNAP`. An address not listed reads 0. -/
structure Memory where
  capacity : Nat
  cells    : List Cell
  snap     : List Cell
deriving DecidableEq, Repr

/-- A resident entry (R13): the tag is the whole address. -/
structure Entry where
  tag  : Int
  data : Word
deriving DecidableEq, Repr

/-- The cache (R13 to R17): `ent` oldest first; `dirty` a set of addresses, listed in rising order; `en`; the four
statistics. -/
structure Cache where
  capacity : Nat
  ent      : List Entry
  dirty    : List Int
  en       : Bool
  hits     : Nat
  misses   : Nat
  total    : Nat
  lat      : Nat
deriving DecidableEq, Repr

/-- The client (R30 to R34). -/
structure Client where
  regs   : Vector Word 32
  pc     : Int
  halted : Option HaltReason
deriving DecidableEq, Repr

/-- The status record of R76. -/
structure Status where
  enabled       : Bool
  current       : Nat
  capacity      : Nat
  utilization   : ℚ
  dirtyCount    : Nat
  resident      : List Int
  hits          : Nat
  misses        : Nat
  hitRate       : ℚ
  avgAccessTime : ℚ
deriving DecidableEq, Repr

/-- A response on the command port (R71). A field that carries no meaning in a response is `none`; `err` and `info`
are the code of `error` and the operand it holds. -/
structure Response where
  error : Option Error := none
  rdata : Option Word := none
  stat  : Option Status := none
deriving DecidableEq, Repr

/-- A transaction on the memory port with its answer (R48): a read is answered by a word or (`none`) by OutOfBounds,
a write by success or by OutOfBounds. -/
inductive Txn where
  | read (address : Int) (answer : Option Word)
  | write (address : Int) (value : Word) (done : Bool)
deriving DecidableEq, Repr

/-- The event outputs of R185. -/
inductive Event where
  | hit (address : Int)
  | miss (address : Int)
  | evict (tag : Int) (wasDirty : Bool)
  | error (e : Error)
deriving DecidableEq, Repr

/-- What the ports carried in the last step. No rule reads them (R185); the model's own fields (notes/assumptions/14). -/
structure Outputs where
  issued : Option Request := none
  resp   : Option Response := none
  txns   : List Txn := []
  events : List Event := []
deriving DecidableEq, Repr

/-- Whose move is next (R53, R206; notes/assumptions/6 and 24). -/
inductive Turn where
  | client              -- the client's step
  | host (r : Request)  -- the host issues this request
  | reset               -- the host builds the machine again (R200, U22)
deriving DecidableEq, Repr

/-- The machine. `prog` is the instruction stream (R35, a parameter that no step changes); `turns` are the moves
to come, the client's where the list is empty. -/
structure State where
  params : Params
  mem    : Memory
  cache  : Cache
  client : Client
  prog   : List Line
  turns  : List Turn
  out    : Outputs
deriving DecidableEq, Repr

/-- R200 steps (1), (2), (5) and (6): the capacities fixed, `M` all zeros, the cache and the client at their reset
values (R36). Register 0 holds 0 (R31). -/
def State.blank (p : Params) (memCapacity cacheCapacity : Nat) (prog : List Line) : State :=
  { params := p
    mem := { capacity := memCapacity, cells := [], snap := [] }
    cache :=
      { capacity := cacheCapacity, ent := [], dirty := [], en := p.enableAtReset
        hits := 0, misses := 0, total := 0, lat := 0 }
    client := { regs := p.regReset.set 0 0#32, pc := 0, halted := none }
    prog := prog
    turns := []
    out := {} }

/-- The machine right after reset (R36, R200), built with the default parameters, an empty image and an empty
stream. DESIGN CHOICE, unsafe: notes/assumptions/2 to 5. -/
def State.reset : State := State.blank Params.default defaultMemCapacity defaultCacheCapacity []

end Sys2Proof.Machine
end

