-- ==== Sys2Proof/Machine/Ops.lean ====
section
/-! DEFINITION. The named operations over the state: the backing store (20_memory.md), the memory port, the cache
(40_cache_access.md, 41_cache_control.md), the command port, the client's registers, and what an error does
(60_exceptions.md). -/

namespace Sys2Proof.Machine

/-! ## Replacing one group of the state -/

def State.withMem (s : State) (m : Memory) : State := { s with mem := m }
def State.withCache (s : State) (c : Cache) : State := { s with cache := c }
def State.withClient (s : State) (c : Client) : State := { s with client := c }
def State.withOut (s : State) (o : Outputs) : State := { s with out := o }
def State.withTurns (s : State) (t : List Turn) : State := { s with turns := t }

/-! ## Results: no rollback -/

/-- How an operation ends (R176): with a value, or with the error raised. Both keep the state as it then was: the
effects made before a `raise` stay made. -/
inductive Res (α : Type) where
  | ok (a : α) (s : State)
  | raise (e : Error) (s : State)
deriving DecidableEq, Repr

/-- One operation after another: an error passes up unchanged (R176). -/
def Res.bind {α β : Type} (r : Res α) (f : α → State → Res β) : Res β :=
  match r with
  | .ok a s => f a s
  | .raise e s => .raise e s

/-- The state an operation leaves. -/
def Res.state {α : Type} (r : Res α) : State :=
  match r with
  | .ok _ s => s
  | .raise _ s => s

/-- The error an operation ends with. -/
def Res.error? {α : Type} (r : Res α) : Option Error :=
  match r with
  | .ok _ _ => none
  | .raise e _ => some e

/-! ## The words of the store, in canonical form -/

/-- The word at `k` in a list of cells with rising addresses; 0 where none is listed (R11). -/
def cellRead (k : Nat) : List Cell → Word
  | [] => 0#32
  | (a, w) :: t => if a = k then w else if k < a then 0#32 else cellRead k t

/-- The list with `w` at `k`. Writing 0, which an unlisted address reads as, takes the cell out. -/
def cellWrite (k : Nat) (w : Word) : List Cell → List Cell
  | [] => if w = 0#32 then [] else [(k, w)]
  | (a, x) :: t =>
    if a = k then (if w = 0#32 then t else (k, w) :: t)
    else if k < a then (if w = 0#32 then (a, x) :: t else (k, w) :: (a, x) :: t)
    else (a, x) :: cellWrite k w t

/-- The canonical form: addresses strictly rising and below `capacity`, no cell that holds 0. -/
abbrev cellsWf (capacity : Nat) (l : List Cell) : Prop :=
  l.Pairwise (fun x y => x.1 < y.1) ∧ ∀ c ∈ l, c.1 < capacity ∧ c.2 ≠ 0#32

/-- Both contents of the backing store are canonical (R23). -/
abbrev Memory.wf (m : Memory) : Prop := cellsWf m.capacity m.cells ∧ cellsWf m.capacity m.snap

/-! ## The backing store -/

/-- R41: the bounds predicate. -/
abbrev Memory.InBounds (m : Memory) (a : Int) : Prop := 0 ≤ a ∧ a < m.capacity

/-- `M[a]`, for an address in bounds. -/
def Memory.word (m : Memory) (a : Int) : Word := cellRead a.toNat m.cells

/-- `M[a] <- w`. -/
def Memory.setWord (m : Memory) (a : Int) (w : Word) : Memory :=
  { m with cells := cellWrite a.toNat w m.cells }

/-- R42: `Memory.read`. -/
def memoryRead (a : Int) (s : State) : Res Word :=
  if s.mem.InBounds a then .ok (s.mem.word a) s else .raise (.outOfBounds a) s

/-- R43: `Memory.write`. The bounds test comes before the range test (D17, R178). -/
def memoryWrite (a : Int) (v : Int) (s : State) : Res Unit :=
  if s.mem.InBounds a then
    match wordOfInt? v with
    | some w => .ok () (s.withMem (s.mem.setWord a w))
    | none => .raise (.valueOutOfRange v) s
  else .raise (.outOfBounds a) s

/-- R44: `Memory.flush`: every word becomes 0; the snapshot stays. -/
def memoryFlush (s : State) : Res Unit := .ok () (s.withMem { s.mem with cells := [] })

/-- R45: `Memory.reset_to_initial`: `M` becomes a fresh copy of `SNAP`. -/
def memoryResetToInitial (s : State) : Res Unit := .ok () (s.withMem { s.mem with cells := s.mem.snap })

/-! ## The memory port -/

def logTxn (t : Txn) (s : State) : State := s.withOut { s.out with txns := s.out.txns ++ [t] }

def logEvents (es : List Event) (s : State) : State := s.withOut { s.out with events := s.out.events ++ es }

/-- R48: `MemRead(a, 1)`, the controller's word read. -/
def portRead (a : Int) (s : State) : Res Word :=
  match memoryRead a s with
  | .ok v s' => .ok v (logTxn (.read a (some v)) s')
  | .raise e s' => .raise e (logTxn (.read a none) s')

/-- R48: `MemWrite(a, 1, w)`, the controller's word write. -/
def portWrite (a : Int) (w : Word) (s : State) : Res Unit :=
  match memoryWrite a w.toInt s with
  | .ok _ s' => .ok () (logTxn (.write a w true) s')
  | .raise e s' => .raise e (logTxn (.write a w false) s')

/-! ## The dirty set -/

/-- `dirty ∪ {a}`, the set kept as a strictly rising list (notes/assumptions/22). -/
def addrInsert (a : Int) : List Int → List Int
  | [] => [a]
  | b :: t => if a = b then b :: t else if a < b then a :: b :: t else b :: addrInsert a t

/-! ## The entry array -/

/-- R100: `Lookup(a)`, the position and the data of the entry with tag `a`. -/
def lookup (a : Int) : List Entry → Option (Nat × Word)
  | [] => none
  | e :: t =>
    if e.tag = a then some (0, e.data)
    else
      match lookup a t with
      | some (i, v) => some (i + 1, v)
      | none => none

/-- `ent \ a` of R6. -/
def removeTag (a : Int) (l : List Entry) : List Entry := l.filter (fun e => decide (e.tag ≠ a))

/-- The first two lines of R103: the entry with tag `a` removed, the new pair appended as newest. -/
def Cache.appended (c : Cache) (a : Int) (v : Word) : List Entry := removeTag a c.ent ++ [⟨a, v⟩]

/-- R103, R104: `ent[0]` is evicted when the count passes `CACHE_CAPACITY`, dirty or not; `dirty` is not touched. -/
def Cache.insert (c : Cache) (a : Int) (v : Word) : Cache :=
  { c with ent := if c.capacity < (c.appended a v).length then (c.appended a v).tail else c.appended a v }

/-- The entry that the insertion of `(a, v)` evicts. -/
def Cache.victim (c : Cache) (a : Int) (v : Word) : Option Entry :=
  if c.capacity < (c.appended a v).length then (c.appended a v).head? else none

/-- The `ev_evict` output of R185 for an insertion. -/
def evictEvents (c : Cache) (a : Int) (v : Word) : List Event :=
  match c.victim a v with
  | some e => [.evict e.tag (decide (e.tag ∈ c.dirty))]
  | none => []

/-- R103: `Insert(a, v)`. It issues no memory-port transaction. -/
def insertPair (a : Int) (v : Word) (s : State) : State :=
  logEvents (evictEvents s.cache a v) (s.withCache (s.cache.insert a v))

/-! ## Cache commands -/

/-- R101, a hit: the counters. -/
def countHit (a : Int) (s : State) : State :=
  logEvents [.hit a] (s.withCache
    { s.cache with total := s.cache.total + 1, hits := s.cache.hits + 1, lat := s.cache.lat + hitLatency })

/-- R101, a miss: the counters. -/
def countMiss (a : Int) (s : State) : State :=
  logEvents [.miss a] (s.withCache
    { s.cache with total := s.cache.total + 1, misses := s.cache.misses + 1, lat := s.cache.lat + missLatency })

/-- R101: `cache_read`. A miss is counted before the store answers (D12, R219). -/
def cacheRead (a : Int) (s : State) : Res Word :=
  if s.cache.en then
    match lookup a s.cache.ent with
    | some (_, v) => .ok v (countHit a s)
    | none => (portRead a (countMiss a s)).bind (fun v s' => .ok v (insertPair a v s'))
  else portRead a s

/-- `dirty <- dirty ∪ {a}`. -/
def markDirty (a : Int) (s : State) : State :=
  s.withCache { s.cache with dirty := addrInsert a s.cache.dirty }

/-- R102: `cache_write`. No counter is written (D11); an enabled write makes no bounds test (R107). -/
def cacheWrite (a : Int) (w : Word) (s : State) : Res Unit :=
  if s.cache.en then .ok () (markDirty a (insertPair a w s)) else portWrite a w s

/-- The loop of R125 over the entries that are left, oldest first (R132): each entry whose address is in `dirty` is
written back; a write-back that fails stops it there (R126). -/
def writeBack (dirty : List Int) : List Entry → State → Res Unit
  | [], s => .ok () s
  | e :: es, s =>
    if e.tag ∈ dirty then (portWrite e.tag e.data s).bind (fun _ s' => writeBack dirty es s')
    else writeBack dirty es s

/-- R125: `sync_with_memory`. It does not look at `en` (R131). -/
def syncWithMemory (s : State) : Res Unit :=
  (writeBack s.cache.dirty s.cache.ent s).bind
    (fun _ s' => .ok () (s'.withCache { s'.cache with dirty := [] }))

/-- R127: the cache's `flush`. A failing sync stops it (R128). -/
def flushCache (s : State) : Res Unit :=
  (syncWithMemory s).bind (fun _ s' => .ok () (s'.withCache { s'.cache with ent := [] }))

/-- R121, R122: `en <- b`; nothing else changes. -/
def setEnabled (b : Bool) (s : State) : Res Unit := .ok () (s.withCache { s.cache with en := b })

/-- R124: any other code. -/
def invalidCode (c : Int) (s : State) : Res Unit := .raise (.invalidControlCode c) s

/-- R120: `cache_control`. -/
def cacheControl (c : Int) (s : State) : Res Unit :=
  if c = 0 then setEnabled false s
  else if c = 1 then setEnabled true s
  else if c = 2 then flushCache s
  else invalidCode c s

/-- `part / whole`, exact (D23), or 0 when `whole` is 0. -/
def ratio (part whole : Nat) : ℚ := if whole = 0 then 0 else mkRat part whole

/-- `part / whole * 100`, exact (D23), or 0 when `whole` is 0. -/
def percent (part whole : Nat) : ℚ := if whole = 0 then 0 else mkRat (part * 100) whole

/-- R129: the status record. -/
def statusOf (c : Cache) : Status :=
  { enabled := c.en
    current := c.ent.length
    capacity := c.capacity
    utilization := percent c.ent.length c.capacity
    dirtyCount := c.dirty.length
    resident := c.ent.map Entry.tag
    hits := c.hits
    misses := c.misses
    hitRate := percent c.hits (c.hits + c.misses)
    avgAccessTime := ratio c.lat (c.hits + c.misses) }

/-- R129: `status`, purely observational. -/
def readStatus (s : State) : Res Status := .ok (statusOf s.cache) s

/-- R73: a reserved `cmd` value changes no state and answers UnknownOperation. -/
def unknownCommand (c : BitVec 4) (s : State) : Res Unit := .raise (.unknownOperation (.cmd c)) s

/-! ## The command port -/

/-- The numeric error codes of R170. -/
def Error.code (e : Error) : BitVec 3 :=
  match e with
  | .outOfBounds _ => 1#3
  | .valueOutOfRange _ => 2#3
  | .invalidControlCode _ => 3#3
  | .unknownOperation _ => 4#3
  | .malformedInstruction _ => 5#3
  | .sourceNotFound _ => 6#3

/-- `err[2:0]` of R71: 0 for success. -/
def Response.err (r : Response) : BitVec 3 :=
  match r.error with
  | none => 0#3
  | some e => e.code

/-- The responses of R71: nothing, a data word, the status record, an error. -/
def respNone (_ : Unit) : Response := {}
def respData (v : Word) : Response := { rdata := some v }
def respStatus (r : Status) : Response := { stat := some r }
def respError (e : Error) : Response := { error := some e }

/-- One command on the command port (R70, R71): the operation runs to its end and one response is made. The outputs
are those of this command alone; an error is also an `ev_error` (R185). -/
def issue {α : Type} (q : Request) (resp : α → Response) (op : State → Res α) (s : State) : Res α :=
  match op (s.withOut {}) with
  | .ok a s' => .ok a (s'.withOut { s'.out with issued := some q, resp := some (resp a) })
  | .raise e s' =>
    .raise e (s'.withOut
      { s'.out with issued := some q, resp := some (respError e), events := s'.out.events ++ [.error e] })

/-- A command of the host. An error is a response like any other: the core does not latch it (R187). -/
def hostCommand {α : Type} (q : Request) (resp : α → Response) (op : State → Res α) (s : State) :
    Host.Outcome State Fault Refusal :=
  .next (issue q resp op s).state

/-! ## The client's registers -/

/-- `x[i]` of R7 and R31: register 0 reads 0. -/
def readReg (i : Reg) (s : State) : Word := if i = 0 then 0#32 else s.client.regs[i]

/-- `x[i] <- v` of R7 and R31: a write of register 0 is discarded. -/
def writeReg (i : Reg) (v : Word) (s : State) : State :=
  if i = 0 then s else s.withClient { s.client with regs := s.client.regs.set i v }

/-- `pc <- target`. -/
def setPc (t : Int) (s : State) : State := s.withClient { s.client with pc := t }

/-- `pc <- pc + INSTR_SIZE` (R160). -/
def advance (s : State) : State := setPc (s.client.pc + s.params.instrSize) s

/-- `halted <- true`, with the reason (R34). -/
def haltRun (r : HaltReason) (s : State) : State := s.withClient { s.client with halted := some r }

/-- An instruction that issues no command leaves the ports idle. -/
def idlePorts (s : State) : State := s.withOut {}

/-! ## Taking an error -/

/-- What an error does in the client (R145, R179): the run halts with the error as the reason. No handler, no vector,
no saved state, no mode change; `pc` and the destination register are not written (R160). There is no return
(R180): only building the machine again ends the halt (`rebuild`). -/
def takeError (e : Error) (s : State) : State := haltRun (.error e) s

/-- R200, U22: the construction sequence applied again. Every cached and dirty value is forgotten, `M` is the initial
image again; the stream and the host's moves to come are not the machine's to forget. -/
def rebuild (s : State) : State :=
  { State.blank s.params s.mem.capacity s.cache.capacity s.prog with
    mem := { s.mem with cells := s.mem.snap }
    turns := s.turns }

end Sys2Proof.Machine
end

