-- ==== Sys2Proof/Machine/Operands.lean ====
section
/-! DEFINITION. The client's operand forms: signed register values, the effective address, results that must fit a
word, and the branch base. There is no flag computation: the hardware has no flags (10_state.md R24), so the package
has no Flags.lean. -/

namespace Sys2Proof.Machine

/-- The value of `x[i]`, a signed integer (R30). -/
def regValue (i : Reg) (s : State) : Int := (readReg i s).toInt

/-- R140: `EA = x[Rs] + offset`, with no scaling, masking or wrap-around. -/
def effectiveAddress (offset : Int) (rs : Reg) (s : State) : Int := regValue rs s + offset

/-- R162: the exact result is written to `rd` and the run goes on, or the instruction is refused. -/
def writeResult (rd : Reg) (v : Int) (s : State) : Host.Outcome State Fault Refusal :=
  match wordOfInt? v with
  | some w => .next (advance (writeReg rd w (idlePorts s)))
  | none => .refused (.resultNotWord v)

/-- R155: the base of the BNE target, by `BRANCH_BASE`. -/
def branchBase (s : State) : Int :=
  match s.params.branchBase with
  | .self => s.client.pc
  | .next => s.client.pc + s.params.instrSize

/-- R155: "offset in instruction-words (multiplied by the instruction size)". -/
def branchTarget (offset : Int) (s : State) : Int := branchBase s + offset * s.params.instrSize

/-- R156: `target * INSTR_SIZE`. -/
def jumpTarget (target : Int) (s : State) : Int := target * s.params.instrSize

/-- A command the client issues and whose value it does not need (R142, R143): `pc` advances after success; an
error halts the run (R145). -/
def clientCommand (q : Request) (op : State → Res Unit) (s : State) : Host.Outcome State Fault Refusal :=
  match issue q respNone op s with
  | .ok _ s' => .next (advance s')
  | .raise e s' => .next (takeError e s')

end Sys2Proof.Machine
end

