-- ==== Sys2Proof/Machine/Arith.lean ====
section
/-! DEFINITION. The client's arithmetic instructions (44_client_context.md R151 to R154, R162). -/

namespace Sys2Proof.Machine

/-- ADD (R151). -/
def execAdd (rd rs rt : Reg) (s : State) : Host.Outcome State Fault Refusal :=
  writeResult rd (regValue rs s + regValue rt s) s

/-- ADDI (R152): `imm` is the integer written, with no width. -/
def execAddi (rd rs : Reg) (imm : Int) (s : State) : Host.Outcome State Fault Refusal :=
  writeResult rd (regValue rs s + imm) s

/-- SUB (R153). PRESUMED meaning and operand order (D29): notes/assumptions/25. -/
def execSub (rd rs rt : Reg) (s : State) : Host.Outcome State Fault Refusal :=
  writeResult rd (regValue rs s - regValue rt s) s

/-- SLT (R154): signed comparison. PRESUMED meaning (D29): notes/assumptions/25. -/
def execSlt (rd rs rt : Reg) (s : State) : Host.Outcome State Fault Refusal :=
  .next (advance (writeReg rd (if regValue rs s < regValue rt s then 1#32 else 0#32) (idlePorts s)))

end Sys2Proof.Machine
end

