-- ==== Sys2Proof/Machine/BackingStore.lean ====
section
/-! DEFINITION. The host's direct commands to the backing store (20_memory.md R42 to R45). They do not use the memory
port, which carries the controller's transactions only (R48, R49; notes/assumptions/15). -/

namespace Sys2Proof.Machine

/-- MEM_READ (R42). -/
def execMemRead (a : Int) (s : State) : Host.Outcome State Fault Refusal :=
  hostCommand (reqMemRead a) respData (memoryRead a) s

/-- MEM_WRITE (R43). -/
def execMemWrite (a : Int) (v : Int) (s : State) : Host.Outcome State Fault Refusal :=
  hostCommand (reqMemWrite a v) respNone (memoryWrite a v) s

/-- MEM_FLUSH (R44). -/
def execMemFlush (s : State) : Host.Outcome State Fault Refusal :=
  hostCommand reqMemFlush respNone memoryFlush s

/-- MEM_RESET_TO_INITIAL (R45). -/
def execMemResetToInitial (s : State) : Host.Outcome State Fault Refusal :=
  hostCommand reqMemResetToInitial respNone memoryResetToInitial s

end Sys2Proof.Machine
end

