-- ==== Sys2Proof/Machine/Branch.lean ====
section
/-! DEFINITION. The client's control transfers and HALT (44_client_context.md R155 to R158). -/

namespace Sys2Proof.Machine

/-- BNE (R155). PRESUMED condition (D29): notes/assumptions/25. -/
def execBne (rs rt : Reg) (offset : Int) (s : State) : Host.Outcome State Fault Refusal :=
  .next (if regValue rs s ≠ regValue rt s then setPc (branchTarget offset s) (idlePorts s) else advance (idlePorts s))

/-- J (R156). -/
def execJ (target : Int) (s : State) : Host.Outcome State Fault Refusal :=
  .next (setPc (jumpTarget target s) (idlePorts s))

/-- JAL (R157): the return address must fit a word (R162). -/
def execJal (target : Int) (s : State) : Host.Outcome State Fault Refusal :=
  match wordOfInt? (s.client.pc + s.params.instrSize) with
  | some w => .next (setPc (jumpTarget target s) (writeReg s.params.raIndex w (idlePorts s)))
  | none => .refused (.resultNotWord (s.client.pc + s.params.instrSize))

/-- HALT (R158): `pc` stays, and nothing is flushed (R161). -/
def execHalt (s : State) : Host.Outcome State Fault Refusal := .next (haltRun .halt (idlePorts s))

end Sys2Proof.Machine
end

