-- ==== Sys2Proof/Machine/CacheAccess.lean ====
section
/-! DEFINITION. The cache access commands (40_cache_access.md). -/

namespace Sys2Proof.Machine

/-- CACHE_READ (R101). -/
def execCacheRead (a : Int) (s : State) : Host.Outcome State Fault Refusal :=
  hostCommand (reqCacheRead a) respData (cacheRead a) s

/-- CACHE_WRITE (R102). -/
def execCacheWrite (a : Int) (w : Word) (s : State) : Host.Outcome State Fault Refusal :=
  hostCommand (reqCacheWrite a w) respNone (cacheWrite a w) s

end Sys2Proof.Machine
end

