-- ==== Sys2Proof/Machine/CacheControl.lean ====
section
/-! DEFINITION. Cache control, write-back, flush and status commands (41_cache_control.md). -/

namespace Sys2Proof.Machine

/-- CACHE_CONTROL (R120). -/
def execCacheControl (c : Int) (s : State) : Host.Outcome State Fault Refusal :=
  hostCommand (reqCacheControl c) respNone (cacheControl c) s

/-- CACHE_CONTROL.DISABLE (R121). -/
def execCacheControlDisable (s : State) : Host.Outcome State Fault Refusal :=
  hostCommand (reqCacheControl 0) respNone (setEnabled false) s

/-- CACHE_CONTROL.ENABLE (R122). -/
def execCacheControlEnable (s : State) : Host.Outcome State Fault Refusal :=
  hostCommand (reqCacheControl 1) respNone (setEnabled true) s

/-- CACHE_CONTROL.FLUSH (R123). -/
def execCacheControlFlush (s : State) : Host.Outcome State Fault Refusal :=
  hostCommand (reqCacheControl 2) respNone flushCache s

/-- CACHE_CONTROL.INVALID (R124). -/
def execCacheControlInvalid (c : Int) (s : State) : Host.Outcome State Fault Refusal :=
  hostCommand (reqCacheControl c) respNone (invalidCode c) s

/-- SYNC_WITH_MEMORY (R125). -/
def execSyncWithMemory (s : State) : Host.Outcome State Fault Refusal :=
  hostCommand reqSyncWithMemory respNone syncWithMemory s

/-- CACHE_FLUSH (R127). -/
def execCacheFlush (s : State) : Host.Outcome State Fault Refusal :=
  hostCommand reqCacheFlush respNone flushCache s

/-- STATUS (R129). -/
def execStatus (s : State) : Host.Outcome State Fault Refusal :=
  hostCommand reqStatus respStatus readStatus s

end Sys2Proof.Machine
end

