-- ==== Sys2Proof/Machine/Protocol.lean ====
section
/-! DEFINITION. The access protocol: the three client instructions that issue a command (43_access_protocol.md). -/

namespace Sys2Proof.Machine

/-- LW (R141): a load into register 0 makes the whole `cache_read` and drops the value; an error halts the run with
the register and `pc` unchanged (R145). -/
def execLw (rt : Reg) (offset : Int) (rs : Reg) (s : State) : Host.Outcome State Fault Refusal :=
  match issue (reqCacheRead (effectiveAddress offset rs s)) respData (cacheRead (effectiveAddress offset rs s)) s with
  | .ok v s' => .next (advance (writeReg rt v s'))
  | .raise e s' => .next (takeError e s')

/-- SW (R142). -/
def execSw (rt : Reg) (offset : Int) (rs : Reg) (s : State) : Host.Outcome State Fault Refusal :=
  clientCommand (reqCacheWrite (effectiveAddress offset rs s) (readReg rt s))
    (cacheWrite (effectiveAddress offset rs s) (readReg rt s)) s

/-- CACHE (R143). -/
def execCache (code : Int) (s : State) : Host.Outcome State Fault Refusal :=
  clientCommand (reqCacheControl code) (cacheControl code) s

end Sys2Proof.Machine
end

