-- ==== Sys2Proof/Machine/Reserved.lean ====
section
/-! DEFINITION. The reserved `cmd` values (30_encoding.md R73): no state change, the answer UnknownOperation. -/

namespace Sys2Proof.Machine

/-- RESERVED_0 (R73). -/
def execReserved0 (s : State) : Host.Outcome State Fault Refusal :=
  hostCommand (reqReserved 0b0000#4) respNone (unknownCommand 0b0000#4) s

/-- RESERVED_7 (R73). -/
def execReserved7 (s : State) : Host.Outcome State Fault Refusal :=
  hostCommand (reqReserved 0b0111#4) respNone (unknownCommand 0b0111#4) s

/-- RESERVED_12 (R73). -/
def execReserved12 (s : State) : Host.Outcome State Fault Refusal :=
  hostCommand (reqReserved 0b1100#4) respNone (unknownCommand 0b1100#4) s

/-- RESERVED_13 (R73). -/
def execReserved13 (s : State) : Host.Outcome State Fault Refusal :=
  hostCommand (reqReserved 0b1101#4) respNone (unknownCommand 0b1101#4) s

/-- RESERVED_14 (R73). -/
def execReserved14 (s : State) : Host.Outcome State Fault Refusal :=
  hostCommand (reqReserved 0b1110#4) respNone (unknownCommand 0b1110#4) s

/-- RESERVED_15 (R73). -/
def execReserved15 (s : State) : Host.Outcome State Fault Refusal :=
  hostCommand (reqReserved 0b1111#4) respNone (unknownCommand 0b1111#4) s

end Sys2Proof.Machine
end

