-- ==== Sys2Proof/Machine/Dispatch.lean ====
section
/-! DEFINITION. One arm per constructor of `Instr`. -/

namespace Sys2Proof.Machine

def exec (i : Instr) (s : State) : Host.Outcome State Fault Refusal :=
  match i with
  | .cacheRead a => Sys2Proof.Machine.execCacheRead a s
  | .cacheWrite a w => Sys2Proof.Machine.execCacheWrite a w s
  | .cacheControl c => Sys2Proof.Machine.execCacheControl c s
  | .cacheControlDisable => Sys2Proof.Machine.execCacheControlDisable s
  | .cacheControlEnable => Sys2Proof.Machine.execCacheControlEnable s
  | .cacheControlFlush => Sys2Proof.Machine.execCacheControlFlush s
  | .cacheControlInvalid c => Sys2Proof.Machine.execCacheControlInvalid c s
  | .syncWithMemory => Sys2Proof.Machine.execSyncWithMemory s
  | .cacheFlush => Sys2Proof.Machine.execCacheFlush s
  | .status => Sys2Proof.Machine.execStatus s
  | .memRead a => Sys2Proof.Machine.execMemRead a s
  | .memWrite a v => Sys2Proof.Machine.execMemWrite a v s
  | .memFlush => Sys2Proof.Machine.execMemFlush s
  | .memResetToInitial => Sys2Proof.Machine.execMemResetToInitial s
  | .reserved0 => Sys2Proof.Machine.execReserved0 s
  | .reserved7 => Sys2Proof.Machine.execReserved7 s
  | .reserved12 => Sys2Proof.Machine.execReserved12 s
  | .reserved13 => Sys2Proof.Machine.execReserved13 s
  | .reserved14 => Sys2Proof.Machine.execReserved14 s
  | .reserved15 => Sys2Proof.Machine.execReserved15 s
  | .add rd rs rt => Sys2Proof.Machine.execAdd rd rs rt s
  | .addi rd rs imm => Sys2Proof.Machine.execAddi rd rs imm s
  | .sub rd rs rt => Sys2Proof.Machine.execSub rd rs rt s
  | .slt rd rs rt => Sys2Proof.Machine.execSlt rd rs rt s
  | .bne rs rt offset => Sys2Proof.Machine.execBne rs rt offset s
  | .j target => Sys2Proof.Machine.execJ target s
  | .jal target => Sys2Proof.Machine.execJal target s
  | .lw rt offset rs => Sys2Proof.Machine.execLw rt offset rs s
  | .sw rt offset rs => Sys2Proof.Machine.execSw rt offset rs s
  | .cache code => Sys2Proof.Machine.execCache code s
  | .halt => Sys2Proof.Machine.execHalt s

end Sys2Proof.Machine
end

