-- ==== Sys2Proof/Machine/Fetch.lean ====
section
/-! DEFINITION. What the next step runs: a request of the host, or the client's next line (44_client_context.md R150). -/

namespace Sys2Proof.Machine

/-- What there is to do next. -/
inductive Fetched where
  | run (i : Instr) (s : State)   -- run this instruction on this state
  | done (s : State)              -- the step is over with this state
  | stuck (f : Fault)
  | refuse (r : Refusal)
deriving DecidableEq, Repr

/-- The request of the host, decoded (R72, R73). -/
def fetchRequest (q : Request) (s : State) : Fetched :=
  match decodeRequest q with
  | .ok i => .run i s
  | .error (.wdataNotWord v) => .refuse (.wdataNotWord v)

/-- The error that a line's decoding raises (R174, R175), with what it records (R188). -/
def lineError (e : LineError) : Error :=
  match e with
  | .unknownOperation op => .unknownOperation (.token op)
  | .malformedInstruction l => .malformedInstruction l

/-- The client's line, decoded; a decode error halts the run and no other state changes (R174, R175). -/
def fetchLine (l : Line) (s : State) : Fetched :=
  match decodeLine l with
  | .ok i => .run i s
  | .error e => .done (takeError (lineError e) (idlePorts s))

/-- R150: `pc` selects a line only when it is no negative number and a multiple of `INSTR_SIZE`. -/
abbrev pcDefined (s : State) : Prop := 0 ≤ s.client.pc ∧ s.client.pc % s.params.instrSize = 0

/-- R150: `idx = pc / INSTR_SIZE`. -/
def lineIndex (s : State) : Nat := (s.client.pc / s.params.instrSize).toNat

/-- R150: the client's fetch, for a run that has not ended. -/
def fetchClient (s : State) : Fetched :=
  if pcDefined s then
    match s.prog[lineIndex s]? with
    | none => .done (haltRun .exhausted (idlePorts s))
    | some l => fetchLine l s
  else .refuse (.pcUndefined s.client.pc)

/-- Whose move it is, and what it runs (notes/assumptions/6 and 12). A client's turn in a run that has ended passes:
the client executes nothing (R34). With no move of the host left there is no step (R150). -/
def fetch (s : State) : Fetched :=
  match s.turns with
  | .reset :: ts => .done (rebuild (s.withTurns ts))
  | .host q :: ts => fetchRequest q (s.withTurns ts)
  | .client :: ts =>
    match s.client.halted with
    | none => fetchClient (s.withTurns ts)
    | some _ => .done (idlePorts (s.withTurns ts))
  | [] =>
    match s.client.halted with
    | none => fetchClient s
    | some r => .stuck (.halted r)

/-- The host's request of one word of the opcode table, before every other move. -/
def placeRequest (s : State) (q : Request) : State := s.withTurns (.host q :: s.turns)

end Sys2Proof.Machine
end

