-- ==== Sys2Proof/Machine/Step.lean ====
section
/-! DEFINITION. One step of the machine. -/

namespace Sys2Proof.Machine

/-- One command, or one client instruction, to completion (R50, R150). -/
def step (s : State) : Host.Outcome State Fault Refusal :=
  match fetch s with
  | .run i s' => exec i s'
  | .done s' => .next s'
  | .stuck f => .fault f
  | .refuse r => .refused r

/-- `s` with the instruction of an opcode-table word where the next step takes it from: a request of the host
(notes/assumptions/5 and 7). -/
def State.withFetchWord (s : State) (nbits w : Nat) : State := placeRequest s (Request.ofTableWord nbits w)

end Sys2Proof.Machine
end

