-- ==== Sys2Proof/Machine/Boot.lean ====
section
/-! DEFINITION. Building the machine: construction is reset (70_reset_and_hazards.md R200 to R205), and the two text
sources it is built from (30_encoding.md R87, R88). No step runs these: they give the states that steps start from. -/

namespace Sys2Proof.Machine

/-- R202: the pairs of the image applied in order; a repeated address takes the last value (D22). -/
def loadPairs : List (Int × Int) → State → Res Unit
  | [], s => .ok () s
  | (a, v) :: rest, s => (memoryWrite a v s).bind (fun _ s' => loadPairs rest s')

/-- R200 step (4): `SNAP` is `M` after the whole load. -/
def takeSnapshot (s : State) : State := s.withMem { s.mem with snap := s.mem.cells }

/-- R200: the machine built from its parameters, its initial image and its stream, or the error that ends
construction (R203). -/
def construct (p : Params) (memCapacity cacheCapacity : Nat) (image : List (Int × Int)) (prog : List Line) :
    Except Error State :=
  match loadPairs image (State.blank p memCapacity cacheCapacity prog) with
  | .ok _ s => .ok (takeSnapshot s)
  | .raise e _ => .error e

/-- A text source: its name, and its lines where it is there and readable (R177). -/
structure Source where
  name  : List Char
  lines : Option (List Line)
deriving DecidableEq, Repr

/-- R87: the lines of the image source applied in order. A line that does not split into two readable tokens refuses
the load (U17). -/
def loadLines : List Line → State → Host.Outcome State Error Refusal
  | [], s => .next s
  | l :: rest, s =>
    match decodeLoadLine l with
    | none => .refused (.loadLineUnreadable l)
    | some (a, v) =>
      match memoryWrite a v s with
      | .ok _ s' => loadLines rest s'
      | .raise e _ => .fault e

/-- R205: the machine built from the image source and the instruction source. A source that is missing ends it with
SourceNotFound (R177, R203). DESIGN CHOICE, notes/assumptions/18: the spec gives no order among the failures of one
construction. Both sources are looked for before any image line is applied, the image's first, so a missing
instruction source is reported even where a line of the image would fail or cannot be read. -/
def boot (p : Params) (memCapacity cacheCapacity : Nat) (imageSource progSource : Source) :
    Host.Outcome State Error Refusal :=
  match imageSource.lines with
  | none => .fault (.sourceNotFound imageSource.name)
  | some image =>
    match progSource.lines with
    | none => .fault (.sourceNotFound progSource.name)
    | some prog =>
      match loadLines image (State.blank p memCapacity cacheCapacity prog) with
      | .next s => .next (takeSnapshot s)
      | .fault e => .fault e
      | .refused r => .refused r

end Sys2Proof.Machine
end

