-- ==== Sys2Proof/Safety.lean ====
section
/-! DEFINITION. What claims about the machine are stated in: the invariants of R18, R23 and R31, what a step must
keep, and the terms in which frames are written. -/

namespace Sys2Proof.Machine

/-- R18 (i): no two entries have the same tag. -/
abbrev Cache.unique (c : Cache) : Prop := (c.ent.map Entry.tag).Nodup

/-- R18 (ii): `len(ent) ≤ CACHE_CAPACITY`. -/
abbrev Cache.bounded (c : Cache) : Prop := c.ent.length ≤ c.capacity

/-- R18 (iii) and (iv): the counters. -/
abbrev Cache.counted (c : Cache) : Prop :=
  c.total = c.hits + c.misses ∧ c.lat = hitLatency * c.hits + missLatency * c.misses

/-- `dirty` is a set: its list is strictly rising (notes/assumptions/22). -/
abbrev Cache.dirtySet (c : Cache) : Prop := c.dirty.Pairwise (fun a b => a < b)

/-- R18 together with the form of the dirty set. -/
abbrev Cache.wf (c : Cache) : Prop := c.unique ∧ c.bounded ∧ c.counted ∧ c.dirtySet

/-- The invariant of every machine that was built: R23, R18, the legal parameters of R4 and the zero in register 0
(R31). `dirty ⊆ tags(ent)` is not part of it (R19). -/
abbrev State.Inv (s : State) : Prop :=
  s.mem.wf ∧ s.cache.wf ∧ s.params.wf ∧ s.client.regs[0] = 0#32

/-- The run has not ended (R34). -/
abbrev State.running (s : State) : Prop := s.client.halted = none

/-- `a` is resident (00_scope.md R9): some entry has tag `a`. -/
abbrev Cache.resident (c : Cache) (a : Int) : Prop := a ∈ c.ent.map Entry.tag

/-- A stale dirty address (00_scope.md R9): dirty and not resident. -/
abbrev Cache.staleDirty (c : Cache) (a : Int) : Prop := a ∈ c.dirty ∧ ¬ c.resident a

/-- What no instruction writes: the parameters, the two capacities, `SNAP`, the stream, the host's moves to come. -/
abbrev sameMachine (s t : State) : Prop :=
  t.params = s.params ∧ t.prog = s.prog ∧ t.turns = s.turns ∧ t.mem.capacity = s.mem.capacity ∧
    t.mem.snap = s.mem.snap ∧ t.cache.capacity = s.cache.capacity

/-- Register `rd` reads `v` (0 where `rd` is the zero register, R31) and every other register reads as before. -/
abbrev regWritten (rd : Reg) (v : Word) (s t : State) : Prop :=
  ∀ r : Reg, readReg r t = if r = 0 then 0#32 else if r = rd then v else readReg r s

/-- Every register reads as before. -/
abbrev regsSame (s t : State) : Prop := ∀ r : Reg, readReg r t = readReg r s

/-- Every word of the store reads as before, but for address `a`. -/
abbrev wordsSameBut (a : Int) (s t : State) : Prop :=
  ∀ b : Int, s.mem.InBounds b → b ≠ a → t.mem.word b = s.mem.word b

/-- The statistics read as before (R16). -/
abbrev countersSame (c d : Cache) : Prop :=
  d.hits = c.hits ∧ d.misses = c.misses ∧ d.total = c.total ∧ d.lat = c.lat

/-- The pair `(a, v)` installed in `ent` (R103), written out: the entry with tag `a` out, the new pair last, the
oldest entry out where the count passes the capacity. -/
abbrev installed (capacity : Nat) (ent : List Entry) (a : Int) (v : Word) : List Entry :=
  let l : List Entry := ent.filter (fun e => decide (e.tag ≠ a)) ++ [⟨a, v⟩]
  if capacity < l.length then l.tail else l

/-- `a` is the address of an entry that a sync writes back (R125): dirty and resident. -/
abbrev Cache.toWriteBack (c : Cache) (a : Int) : Prop := a ∈ c.dirty ∧ c.resident a

/-- R52: the instruction is one of the listed causes for the word at `a` to change, with SW and CACHE as the commands
they issue: a write of `a` with the cache disabled (i), a direct write of `a` (ii), a write-back of `a` (iii), the
store's flush (iv) and restore (v). -/
def storeCause (i : Instr) (s : State) (a : Int) : Prop :=
  match i with
  | .cacheRead _ => False
  | .cacheWrite b _ => s.cache.en = false ∧ b = a
  | .cacheControl c => c = 2 ∧ s.cache.toWriteBack a
  | .cacheControlDisable => False
  | .cacheControlEnable => False
  | .cacheControlFlush => s.cache.toWriteBack a
  | .cacheControlInvalid _ => False
  | .syncWithMemory => s.cache.toWriteBack a
  | .cacheFlush => s.cache.toWriteBack a
  | .status => False
  | .memRead _ => False
  | .memWrite b _ => b = a
  | .memFlush => True
  | .memResetToInitial => True
  | .reserved0 => False
  | .reserved7 => False
  | .reserved12 => False
  | .reserved13 => False
  | .reserved14 => False
  | .reserved15 => False
  | .add _ _ _ => False
  | .addi _ _ _ => False
  | .sub _ _ _ => False
  | .slt _ _ _ => False
  | .bne _ _ _ => False
  | .j _ => False
  | .jal _ => False
  | .lw _ _ _ => False
  | .sw _ offset rs => s.cache.en = false ∧ effectiveAddress offset rs s = a
  | .cache c => c = 2 ∧ s.cache.toWriteBack a
  | .halt => False

/-- Every write-back of a sync succeeds: each address that is dirty and resident is in bounds (R126). -/
abbrev State.canSync (s : State) : Prop := ∀ e ∈ s.cache.ent, e.tag ∈ s.cache.dirty → s.mem.InBounds e.tag

/-- The store after a sync that succeeds (R125): each dirty resident address holds its entry's data, every other
address what it held. -/
abbrev syncedWords (s t : State) : Prop :=
  (∀ e ∈ s.cache.ent, e.tag ∈ s.cache.dirty → t.mem.word e.tag = e.data) ∧
    ∀ a : Int, s.mem.InBounds a → ¬ s.cache.toWriteBack a → t.mem.word a = s.mem.word a

/-- Instructions run one after another; `none` where one of them gives no next state. -/
def runAll : List Instr → State → Option State
  | [], s => some s
  | i :: is, s =>
    match exec i s with
    | .next t => runAll is t
    | _ => none

end Sys2Proof.Machine
end

