-- ==== Sys2Proof/Certificates/Slice0/Obligations.lean ====
section
/-! DEFINITION. The statements for the provers. -/

open Sys2Proof Sys2Proof.Machine

/-! ## Encoding -/

/-- Decoding the raw form of a well-formed instruction gives it back; a CACHE_CONTROL request comes back as the row
its code selects (R74). Rests on R72 to R74 and R80 to R84; that the encoder writes decimal without leading zeros is
the model's choice (notes/assumptions/17). The `cmd` numbers and the token syntax are the spec's own decisions D2 and
D36. -/
def Obligations.EncodeThenDecodeGivesCanonical : Prop :=
  ∀ i : Instr, i.wellFormed = true → decode (encode i) = .ok i.canonical

/-- What the decoder gives is well formed and canonical, and a client instruction exactly where a line was decoded. -/
def Obligations.DecodedInstrIsWellFormed : Prop :=
  ∀ (raw : Raw) (i : Instr), decode raw = .ok i →
    i.wellFormed = true ∧ i.canonical = i ∧ (i.isClient = true ↔ ∃ l, raw = .line l)

/-- The CACHE_CONTROL row and the row its code selects (R74, R120) do the same. -/
def Obligations.ControlRowRunsAsItsSubRow : Prop :=
  ∀ (i : Instr) (s : State), exec i.canonical s = exec i s

/-- Words written out from R72, R73, R81, R84 and the examples of 95_test_vectors.md decode to what they stand for.
The `cmd` numbers and the token syntax are the spec's own decisions D2 and D36. -/
def Obligations.SampleWordsDecode : Prop :=
  decode (.request { cmd := 0b0001#4, addr := 7 }) = .ok (.cacheRead 7) ∧
    decode (.request { cmd := 0b0011#4, code := 2 }) = .ok .cacheControlFlush ∧
    decode (.request { cmd := 0b1001#4, addr := 3, wdata := 2147483648 }) = .ok (.memWrite 3 2147483648) ∧
    decode (.request { cmd := 0b0111#4 }) = .ok .reserved7 ∧
    decode (.line ['A', 'D', 'D', ',', 'R', '3', ',', 'R', '1', ',', 'R', '2']) = .ok (.add 3 1 2) ∧
    decode (.line ['L', 'W', ',', 'R', '2', ',', '-', '3', '(', 'R', '1', ')']) = .ok (.lw 2 (-3) 1) ∧
    decode (.line ['H', 'A', 'L', 'T', ',', '1']) =
      .error (.line (.malformedInstruction ['H', 'A', 'L', 'T', ',', '1']))

/-- R85, R86 and the order of R178: a line fails with UnknownOperation exactly when its first token is none of the
eleven opcodes; a recognized opcode can fail with MalformedInstruction of that line only. The exact match of opcodes
and the order of the checks are the spec's own decision D36. -/
def Obligations.LineErrorsAreClassified : Prop :=
  ∀ (l : Line) (op : Token) (args : List Token), splitTokens l = op :: args →
    ((∀ o : Opcode, o.token ≠ op) → decodeLine l = .error (.unknownOperation op)) ∧
      ∀ o : Opcode, o.token = op →
        (∀ i, decodeOperands o args = some i → decodeLine l = .ok i) ∧
          (decodeOperands o args = none → decodeLine l = .error (.malformedInstruction l))

/-- R88: an address token made only of `0` and `1` is read as a base-2 unsigned integer. That every such token is
binary is the spec's own decision D21. -/
def Obligations.BinaryAddressTokenIsBase2 : Prop :=
  ∀ bits : List Bool, bits ≠ [] →
    parseAddrToken (bits.map (fun b => if b then '1' else '0')) =
      some ((bits.foldl (fun n b => n * 2 + b.toNat) 0 : Nat) : Int)

/-! ## The step -/

/-- A step whose move is the host's runs the command its request decodes to, on the state with that move taken off
(R72, R206); the schedule of moves is the model's (notes/assumptions/6). -/
def Obligations.StepRunsHostCommand : Prop :=
  ∀ (s : State) (q : Request) (ts : List Turn) (i : Instr),
    s.turns = .host q :: ts → decode (.request q) = .ok i → step s = exec i (s.withTurns ts)

/-- A step whose move is the client's, in a run that has not ended, runs the instruction that line `pc / INSTR_SIZE`
decodes to (R150); the schedule of moves is the model's (notes/assumptions/6). That `pc / INSTR_SIZE` is the index of
the line is the spec's own decision D26. -/
def Obligations.StepRunsClientLine : Prop :=
  ∀ (s : State) (l : Line) (i : Instr),
    (s.turns = [] ∨ ∃ ts, s.turns = .client :: ts) → s.running → pcDefined s →
      s.prog[(s.client.pc / s.params.instrSize).toNat]? = some l → decode (.line l) = .ok i →
        step s = exec i (s.withTurns s.turns.tail)

/-- R174, R175, R179: a line that does not decode halts the run with the error its decoding raised; no other state of
the machine changes (the move is taken off and the ports are idle). That a step without a command leaves the recorded
outputs empty is the model's choice (notes/assumptions/14). -/
def Obligations.UndecodableLineHaltsTheRun : Prop :=
  ∀ (s : State) (l : Line) (e : LineError),
    (s.turns = [] ∨ ∃ ts, s.turns = .client :: ts) → s.running → pcDefined s →
      s.prog[(s.client.pc / s.params.instrSize).toNat]? = some l → decodeLine l = .error e →
        step s = .next { s with
          client := { s.client with halted := some (.error
            (match e with
            | .unknownOperation op => .unknownOperation (.token op)
            | .malformedInstruction m => .malformedInstruction m)) }
          turns := s.turns.tail
          out := {} }

/-- R150, R161: past the end of the stream the run halts, stream exhausted, and nothing is flushed or written. That
nothing is flushed is the spec's own decision D31. That a step without a command leaves the recorded outputs empty is
the model's choice (notes/assumptions/14). -/
def Obligations.ExhaustedStreamHaltsTheRun : Prop :=
  ∀ s : State, (s.turns = [] ∨ ∃ ts, s.turns = .client :: ts) → s.running → pcDefined s →
    s.prog.length ≤ (s.client.pc / s.params.instrSize).toNat →
      step s = .next { s with
        client := { s.client with halted := some .exhausted }
        turns := s.turns.tail
        out := {} }

/-- What the spec gives no behaviour, the model refuses: a `pc` that is negative or not a multiple of `INSTR_SIZE`
(R150), and a CACHE_WRITE request whose value is no `Word` (R70, R102). -/
def Obligations.UndefinedPcAndWideWriteAreRefused : Prop :=
  (∀ s : State, (s.turns = [] ∨ ∃ ts, s.turns = .client :: ts) → s.running →
    (s.client.pc < 0 ∨ s.client.pc % s.params.instrSize ≠ 0) → step s = .refused (.pcUndefined s.client.pc)) ∧
    ∀ (s : State) (ts : List Turn) (a : Int) (v c : Int),
      s.turns = .host { cmd := 0b0010#4, addr := a, wdata := v, code := c } :: ts →
        (v < -2147483648 ∨ 2147483647 < v) → step s = .refused (.wdataNotWord v)

/-- R34, R150, R180: once the run has ended, no step but building the machine again changes a register, `pc` or the
recorded reason, whatever the host commands; and with no move of the host left there is no step. That the latter is a
stuck state, and only then, is the model's choice (notes/assumptions/12). -/
def Obligations.EndedRunStaysEnded : Prop :=
  (∀ s t : State, ¬ s.running → s.turns.head? ≠ some .reset → step s = .next t → t.client = s.client) ∧
    ∀ (s : State) (r : HaltReason), s.client.halted = some r → s.turns = [] → step s = .fault (.halted r)

/-! ## Reset and construction -/

/-- R36 and R200: what a reset in the middle of a run leaves; it forgets every cached and dirty value. That the host's
reset is a move of the schedule is the model's choice (notes/assumptions/24). That it is construction again is the
spec's own decision D10. -/
def Obligations.ResetMoveRebuildsTheMachine : Prop :=
  ∀ (s : State) (ts : List Turn), s.turns = .reset :: ts →
    ∃ t, step s = .next t ∧ t.mem.cells = s.mem.snap ∧ t.cache.ent = [] ∧ t.cache.dirty = [] ∧
      t.cache.hits = 0 ∧ t.cache.misses = 0 ∧ t.cache.total = 0 ∧ t.cache.lat = 0 ∧
      t.cache.en = s.params.enableAtReset ∧ t.client.pc = 0 ∧ t.running ∧ readReg 0 t = 0#32 ∧
      t.turns = ts ∧ t.params = s.params ∧ t.prog = s.prog ∧ t.mem.capacity = s.mem.capacity ∧
      t.mem.snap = s.mem.snap ∧ t.cache.capacity = s.cache.capacity

/-- R202, R36: a built machine reads, at each address, the last value the image gives it and 0 where it gives none;
the snapshot is that content, and the cache and the client are at their reset values. That the last pair wins is the
spec's own decision D22. -/
def Obligations.ConstructedMachineHoldsItsImage : Prop :=
  ∀ (p : Params) (m c : Nat) (image : List (Int × Int)) (prog : List Line) (s : State),
    construct p m c image prog = .ok s →
      s.mem.capacity = m ∧ s.cache.capacity = c ∧ s.prog = prog ∧ s.params = p ∧
      s.mem.snap = s.mem.cells ∧
      (∀ a : Int, s.mem.InBounds a →
        (s.mem.word a).toInt = (((image.reverse.find? (fun q => decide (q.1 = a))).map Prod.snd).getD 0)) ∧
      s.cache.ent = [] ∧ s.cache.dirty = [] ∧ s.cache.hits = 0 ∧ s.cache.misses = 0 ∧ s.cache.total = 0 ∧
      s.cache.lat = 0 ∧ s.cache.en = p.enableAtReset ∧ s.client.pc = 0 ∧ s.running ∧ readReg 0 s = 0#32

/-- R203: construction ends with the error of the first pair that is out of bounds or out of range, the bounds test
before the range test (R43), and succeeds when there is none. That order of the tests is the spec's own decision D17.
-/
def Obligations.ConstructionFailsAtFirstBadPair : Prop :=
  ∀ (p : Params) (m c : Nat) (good : List (Int × Int)) (prog : List Line),
    (∀ q ∈ good, 0 ≤ q.1 ∧ q.1 < m ∧ -2147483648 ≤ q.2 ∧ q.2 ≤ 2147483647) →
      (∃ s, construct p m c good prog = .ok s) ∧
        ∀ (a : Int) (v : Int) (rest : List (Int × Int)),
          ((a < 0 ∨ m ≤ a) → construct p m c (good ++ (a, v) :: rest) prog = .error (.outOfBounds a)) ∧
            (0 ≤ a → a < m → (v < -2147483648 ∨ 2147483647 < v) →
              construct p m c (good ++ (a, v) :: rest) prog = .error (.valueOutOfRange v))

/-! ## Invariants and whole-machine rules -/

/-- The invariants of R18 and R23, the legal parameters of R4 and the zero register (R31) hold after every step that
gives a next state. That the contents are kept as sorted lists is the model's choice (notes/assumptions/1 and 22). -/
def Obligations.InvariantKeptByEveryStep : Prop :=
  ∀ s t : State, s.Inv → step s = .next t → t.Inv

/-- The invariant holds right after reset, with the parameters the model chose (notes/assumptions/2 to 4). -/
def Obligations.InvariantHoldsAtReset : Prop := State.reset.Inv

/-- Every machine built with legal parameters meets the invariant (R18, R23, R202), whatever its capacities, image
and stream. -/
def Obligations.ConstructedMachineMeetsInvariant : Prop :=
  ∀ (p : Params) (m c : Nat) (image : List (Int × Int)) (prog : List Line) (s : State),
    p.wf → construct p m c image prog = .ok s → s.Inv

/-- R12, R17, R35 and "it never changes" of R11: no step changes the snapshot, a capacity, a parameter or the stream. -/
def Obligations.FixedPartsNeverChange : Prop :=
  ∀ s t : State, step s = .next t →
    t.mem.snap = s.mem.snap ∧ t.mem.capacity = s.mem.capacity ∧ t.cache.capacity = s.cache.capacity ∧
      t.params = s.params ∧ t.prog = s.prog

/-- R52: the only ways a word of the store changes, with the client's SW and CACHE as the commands they issue. -/
def Obligations.StoreChangesOnlyByListedCauses : Prop :=
  ∀ (i : Instr) (s t : State) (a : Int), s.mem.wf → exec i s = .next t → s.mem.InBounds a →
    t.mem.word a ≠ s.mem.word a → storeCause i s a

/-- R14: an address enters `dirty` only by an enabled `cache_write` of that address, and leaves it only when a sync
clears the whole set. -/
def Obligations.DirtySetChangesOnlyByWriteAndSync : Prop :=
  ∀ (i : Instr) (s t : State) (a : Int), exec i s = .next t →
    (a ∈ t.cache.dirty → a ∉ s.cache.dirty →
      s.cache.en = true ∧ ((∃ w, i = .cacheWrite a w) ∨
        ∃ rt offset rs, i = .sw rt offset rs ∧ effectiveAddress offset rs s = a)) ∧
      (a ∈ s.cache.dirty → a ∉ t.cache.dirty →
        t.cache.dirty = [] ∧ (i = .syncWithMemory ∨ i = .cacheFlush ∨ i = .cacheControlFlush ∨
          i = .cacheControl 2 ∨ i = .cache 2))

/-- R16, R183: the statistics move only at an enabled `cache_read`, by one hit of 1 unit or by one miss of 10 units,
and no instruction decreases them. That a write moves none is the spec's own decision D11. -/
def Obligations.StatisticsMoveOnlyAtEnabledReads : Prop :=
  ∀ (i : Instr) (s t : State), exec i s = .next t →
    countersSame s.cache t.cache ∨
      (s.cache.en = true ∧ ((∃ a, i = .cacheRead a) ∨ ∃ rt offset rs, i = .lw rt offset rs) ∧
        t.cache.total = s.cache.total + 1 ∧
        ((t.cache.hits = s.cache.hits + 1 ∧ t.cache.misses = s.cache.misses ∧ t.cache.lat = s.cache.lat + 1) ∨
          (t.cache.hits = s.cache.hits ∧ t.cache.misses = s.cache.misses + 1 ∧ t.cache.lat = s.cache.lat + 10)))

/-- R15: the enable bit changes only by control code 0 (to false) or 1 (to true). -/
def Obligations.EnableBitChangesOnlyByControl : Prop :=
  ∀ (i : Instr) (s t : State), exec i s = .next t → t.cache.en ≠ s.cache.en →
    (t.cache.en = false ∧ (i = .cacheControlDisable ∨ i = .cacheControl 0 ∨ i = .cache 0)) ∨
      (t.cache.en = true ∧ (i = .cacheControlEnable ∨ i = .cacheControl 1 ∨ i = .cache 1))

/-- R89, R144, R182: LW issues CACHE_READ, SW issues CACHE_WRITE, CACHE issues CACHE_CONTROL, and no other client
instruction issues a command or touches the hierarchy. That a step without a command leaves the recorded outputs empty
is the model's choice (notes/assumptions/14). -/
def Obligations.ClientIssuesOnlyItsThreeCommands : Prop :=
  ∀ (i : Instr) (s t : State), i.isClient = true → exec i s = .next t →
    match i with
    | .lw _ offset rs => t.out.issued = some { cmd := 0b0001#4, addr := regValue rs s + offset }
    | .sw rt offset rs =>
      t.out.issued = some { cmd := 0b0010#4, addr := regValue rs s + offset, wdata := regValue rt s }
    | .cache c => t.out.issued = some { cmd := 0b0011#4, code := c }
    | _ => t.out = {} ∧ t.mem = s.mem ∧ t.cache = s.cache

/-- R144: what LW, SW and CACHE do to the store and the cache is what the command they issue does, response and port
transactions included. -/
def Obligations.ProtocolIsAPurePassThrough : Prop :=
  ∀ s : State,
    (∀ rt offset rs, ∃ t u, exec (.lw rt offset rs) s = .next t ∧
      exec (.cacheRead (regValue rs s + offset)) s = .next u ∧
      t.mem = u.mem ∧ t.cache = u.cache ∧ t.out = u.out) ∧
    (∀ rt offset rs, ∃ t u, exec (.sw rt offset rs) s = .next t ∧
      exec (.cacheWrite (regValue rs s + offset) (readReg rt s)) s = .next u ∧
      t.mem = u.mem ∧ t.cache = u.cache ∧ t.out = u.out) ∧
    ∀ c, ∃ t u, exec (.cache c) s = .next t ∧ exec (.cacheControl c) s = .next u ∧
      t.mem = u.mem ∧ t.cache = u.cache ∧ t.out = u.out

/-- R145, R160, R179: when a client instruction ends in an error, the run has halted with that error, and no register
and not `pc` is written. That `pc` and the register stay is the spec's own decision D19. -/
def Obligations.FailingClientInstructionHaltsInPlace : Prop :=
  ∀ (i : Instr) (s t : State) (e : Error), i.isClient = true → exec i s = .next t →
    t.out.resp = some { error := some e } →
      t.client = { s.client with halted := some (.error e) }

/-- R187: an error of a command is a response; no command of the host touches the client. That the core latches no
error is the spec's own decision D19. -/
def Obligations.HostCommandsNeverTouchTheClient : Prop :=
  ∀ (i : Instr) (s : State), i.isClient = false → ∃ t, exec i s = .next t ∧ t.client = s.client ∧ sameMachine s t ∧
    ∃ r, t.out.resp = some r

/-! ## Lookup, reads and writes through the cache -/

/-- R100: `Lookup(a)` returns the position and data of the one entry with tag `a`, and `none` when there is none. -/
def Obligations.LookupFindsTheOneEntry : Prop :=
  ∀ c : Cache, c.unique → ∀ (a : Int),
    (∀ (n : Nat) (v : Word), lookup a c.ent = some (n, v) ↔ c.ent[n]? = some ⟨a, v⟩) ∧
      (lookup a c.ent = none ↔ ¬ c.resident a)

/-- R101, R105, R109: an enabled read of a resident address, in bounds or not, returns the entry's data, counts one
access and one hit of 1 unit, issues no memory-port transaction, and changes nothing else: the entry does not move.
The hit on an address out of bounds is the spec's own derivation (R109). The recorded event outputs are optional
(R185, D37), and that they are kept, and their order, is the model's choice (notes/assumptions/14). -/
def Obligations.EnabledReadOfResidentHits : Prop :=
  ∀ (s : State) (a : Int) (n : Nat) (v : Word), s.cache.en = true → lookup a s.cache.ent = some (n, v) →
    exec (.cacheRead a) s = .next { s with
      cache := { s.cache with total := s.cache.total + 1, hits := s.cache.hits + 1, lat := s.cache.lat + 1 }
      out :=
        { issued := some { cmd := 0b0001#4, addr := a }, resp := some { rdata := some v }
          txns := [], events := [.hit a] } }

/-- R101, R103, R104: an enabled read of an address that is not resident and is in bounds returns `M[a]`, counts one
access and one miss of 10 units, makes one read transaction, and installs the pair, evicting the oldest entry where
the count passes the capacity; `dirty` and the store stay. The recorded event outputs are optional (R185, D37), and
that they are kept, and their order, is the model's choice (notes/assumptions/14). -/
def Obligations.EnabledReadOfAbsentInstalls : Prop :=
  ∀ (s : State) (a : Int), s.cache.en = true → lookup a s.cache.ent = none → s.mem.InBounds a →
    exec (.cacheRead a) s = .next { s with
      cache :=
        { s.cache with
          ent := installed s.cache.capacity s.cache.ent a (s.mem.word a)
          total := s.cache.total + 1, misses := s.cache.misses + 1, lat := s.cache.lat + 10 }
      out :=
        { issued := some { cmd := 0b0001#4, addr := a }, resp := some { rdata := some (s.mem.word a) }
          txns := [.read a (some (s.mem.word a))]
          events := .miss a :: evictEvents s.cache a (s.mem.word a) } }

/-- R219: an enabled read of an address that is neither resident nor in bounds raises OutOfBounds after the counters
and before the install. That the counters come first is the spec's own decision D12. The recorded event outputs are
optional (R185, D37), and that they are kept, and their order, is the model's choice (notes/assumptions/14). -/
def Obligations.FailingMissIsCounted : Prop :=
  ∀ (s : State) (a : Int), s.cache.en = true → lookup a s.cache.ent = none → ¬ s.mem.InBounds a →
    exec (.cacheRead a) s = .next { s with
      cache := { s.cache with total := s.cache.total + 1, misses := s.cache.misses + 1, lat := s.cache.lat + 10 }
      out :=
        { issued := some { cmd := 0b0001#4, addr := a }, resp := some { error := some (.outOfBounds a) }
          txns := [.read a none], events := [.miss a, .error (.outOfBounds a)] } }

/-- R103, R106, R107: an enabled write of any address, in bounds or not, installs the pair as the newest entry, marks
the address dirty, and changes no word of the store and no counter; no memory-port transaction is made. That no
counter moves is the spec's own decision D11. -/
def Obligations.EnabledWriteInstallsAndMarksDirty : Prop :=
  ∀ (s : State) (a : Int) (w : Word), s.cache.en = true →
    ∃ t, exec (.cacheWrite a w) s = .next t ∧
      t.cache.ent = installed s.cache.capacity s.cache.ent a w ∧
      (∀ b : Int, b ∈ t.cache.dirty ↔ b = a ∨ b ∈ s.cache.dirty) ∧
      countersSame s.cache t.cache ∧ t.cache.en = s.cache.en ∧ t.mem = s.mem ∧ t.client = s.client ∧
      sameMachine s t ∧ t.out.resp = some {} ∧ t.out.txns = []

/-- R101, R102 (bypass), R111: with the cache disabled, `cache_read` and `cache_write` leave what MEM_READ and MEM_WRITE
leave and answer what they answer, and no cache state changes. -/
def Obligations.DisabledAccessIsDirectAccess : Prop :=
  ∀ (s : State) (a : Int) (w : Word), s.cache.en = false →
    ∃ t u t' u', exec (.cacheRead a) s = .next t ∧ exec (.memRead a) s = .next u ∧
      exec (.cacheWrite a w) s = .next t' ∧ exec (.memWrite a w.toInt) s = .next u' ∧
      t.mem = u.mem ∧ t.out.resp = u.out.resp ∧ t.cache = s.cache ∧ t.client = s.client ∧ sameMachine s t ∧
      t'.mem = u'.mem ∧ t'.out.resp = u'.out.resp ∧ t'.cache = s.cache ∧ t'.client = s.client ∧ sameMachine s t'

/-- R111, second half: a read that has just missed and succeeded makes the next enabled read of that address a hit
with the same value, where the capacity is 1 or more. -/
def Obligations.SecondReadOfAnAddressHits : Prop :=
  ∀ (s : State) (a : Int), 1 ≤ s.cache.capacity → s.cache.en = true →
    (s.mem.InBounds a ∨ s.cache.resident a) →
    ∃ t u v, exec (.cacheRead a) s = .next t ∧ exec (.cacheRead a) t = .next u ∧
      t.out.resp = some { rdata := some v } ∧ u.out.resp = some { rdata := some v } ∧
      u.cache.hits = t.cache.hits + 1 ∧ u.cache.ent = t.cache.ent ∧ u.out.txns = []

/-- R104, R210: an enabled write of a new address into a full cache evicts the oldest entry and no other; a dirty
victim's data reaches no word of the store and its address stays dirty. The recorded event outputs are optional (R185,
D37), and that they are kept, and their order, is the model's choice (notes/assumptions/14). -/
def Obligations.EvictionLosesDirtyData : Prop :=
  ∀ (s : State) (a : Int) (w : Word) (e : Entry) (rest : List Entry),
    s.cache.en = true → s.cache.unique → s.cache.ent = e :: rest → s.cache.ent.length = s.cache.capacity →
      ¬ s.cache.resident a →
      ∃ t, exec (.cacheWrite a w) s = .next t ∧ t.cache.ent = rest ++ [⟨a, w⟩] ∧ t.mem = s.mem ∧
        (e.tag ∈ s.cache.dirty → t.cache.staleDirty e.tag) ∧
        .evict e.tag (decide (e.tag ∈ s.cache.dirty)) ∈ t.out.events

/-- R104: "with capacity `k`, writing `k+1` distinct addresses in sequence evicts exactly the first-inserted address
and no other", from an empty enabled cache. -/
def Obligations.WritingOneTooManyEvictsTheFirst : Prop :=
  ∀ (s : State) (first : Int × Word) (others : List (Int × Word)),
    s.cache.en = true → s.cache.ent = [] → others.length = s.cache.capacity →
      ((first :: others).map Prod.fst).Nodup →
      ∃ t, runAll ((first :: others).map (fun p => .cacheWrite p.1 p.2)) s = some t ∧
        t.cache.ent = others.map (fun p => ⟨p.1, p.2⟩) ∧ t.mem = s.mem ∧
        ∀ p ∈ first :: others, p.1 ∈ t.cache.dirty

/-- R19: `dirty ⊆ tags(ent)` is not an invariant: one enabled write takes a machine that meets the invariant and has no
stale dirty address to one that has. -/
def Obligations.DirtySubsetIsNotInvariant : Prop :=
  ∃ (s t : State) (i : Instr) (a : Int), s.Inv ∧ (∀ b, ¬ s.cache.staleDirty b) ∧ exec i s = .next t ∧
    t.cache.staleDirty a

/-! ## Sync and flush -/

/-- R125: a sync whose write-backs are all in bounds writes each dirty resident entry's data to the store and clears
`dirty`; entries, enable bit and statistics stay. The transactions are those of R49, oldest entry first. That order is
the spec's own decision D14. -/
def Obligations.SyncWritesBackDirtyResidents : Prop :=
  ∀ s : State, s.mem.wf → s.cache.unique → s.canSync →
    ∃ t, exec .syncWithMemory s = .next t ∧ syncedWords s t ∧ t.cache = { s.cache with dirty := [] } ∧
      t.client = s.client ∧ sameMachine s t ∧ t.out.resp = some {} ∧
      t.out.txns = (s.cache.ent.filter (fun e => decide (e.tag ∈ s.cache.dirty))).map
        (fun e => .write e.tag e.data true)

/-- R127, R123: a flush (CACHE_FLUSH, or control code 2 by either row) does what the sync does and empties the
entries; the enable bit and the statistics stay. -/
def Obligations.FlushSyncsAndEmpties : Prop :=
  ∀ (s : State) (i : Instr), s.mem.wf → s.cache.unique → s.canSync →
    (i = .cacheFlush ∨ i = .cacheControlFlush ∨ i = .cacheControl 2) →
    ∃ t, exec i s = .next t ∧ syncedWords s t ∧ t.cache = { s.cache with dirty := [], ent := [] } ∧
      t.client = s.client ∧ sameMachine s t ∧ t.out.resp = some {}

/-- R126, R128: a sync or flush stops at the oldest dirty entry that is out of bounds with OutOfBounds of its tag; the
dirty entries older than it are written, no other word changes, and the cache is what it was. No rollback and oldest
first are the spec's own decisions D13 and D14. -/
def Obligations.FailingSyncStopsHalfDone : Prop :=
  ∀ (s : State) (i : Instr) (older : List Entry) (e : Entry) (younger : List Entry),
    s.mem.wf → s.cache.unique → s.cache.ent = older ++ e :: younger →
      (∀ x ∈ older, x.tag ∈ s.cache.dirty → s.mem.InBounds x.tag) →
      e.tag ∈ s.cache.dirty → ¬ s.mem.InBounds e.tag →
      (i = .syncWithMemory ∨ i = .cacheFlush ∨ i = .cacheControlFlush ∨ i = .cacheControl 2) →
      ∃ t, exec i s = .next t ∧ t.out.resp = some { error := some (.outOfBounds e.tag) } ∧
        (∀ x ∈ older, x.tag ∈ s.cache.dirty → t.mem.word x.tag = x.data) ∧
        (∀ a : Int, s.mem.InBounds a → (∀ x ∈ older, x.tag ∈ s.cache.dirty → x.tag ≠ a) →
          t.mem.word a = s.mem.word a) ∧
        t.cache = s.cache ∧ t.client = s.client ∧ sameMachine s t

/-- R125 (the property of the document, with the conditions of 90_conflicts.md C6): after an enabled write of an
address in bounds and a sync, a direct read returns the value and the address is not dirty. -/
def Obligations.WriteThenSyncReachesTheStore : Prop :=
  ∀ (s : State) (a : Int) (w : Word), s.mem.wf → s.cache.unique → 1 ≤ s.cache.capacity →
    s.cache.en = true → s.canSync → s.mem.InBounds a →
    ∃ t, runAll [.cacheWrite a w, .syncWithMemory, .memRead a] s = some t ∧
      t.out.resp = some { rdata := some w } ∧ a ∉ t.cache.dirty

/-- R131: a sync and a flush do not look at the enable bit: with the bit at either value they leave the same store, the
same entries and dirty set, and answer the same. -/
def Obligations.SyncAndFlushIgnoreTheEnableBit : Prop :=
  ∀ (s : State) (b : Bool) (i : Instr),
    (i = .syncWithMemory ∨ i = .cacheFlush ∨ i = .cacheControlFlush ∨ i = .cacheControl 2) →
    ∃ t, exec i s = .next t ∧
      exec i { s with cache := { s.cache with en := b } } = .next { t with cache := { t.cache with en := b } }

/-- R211, R213: the value a disabled write puts in the store is not seen by a later enabled hit, and the next flush
writes the older cached value over it. -/
def Obligations.OlderCachedValueWinsAfterBypass : Prop :=
  ∀ (s : State) (a : Int) (n : Nat) (old new : Word), s.mem.wf → s.cache.unique → s.canSync → s.mem.InBounds a →
    lookup a s.cache.ent = some (n, old) → a ∈ s.cache.dirty →
    (∃ t, runAll [.cacheControlDisable, .cacheWrite a new, .cacheControlEnable, .cacheRead a] s = some t ∧
      t.mem.word a = new ∧ t.out.resp = some { rdata := some old }) ∧
    ∃ t, runAll [.cacheControlDisable, .cacheWrite a new, .cacheControlFlush] s = some t ∧ t.mem.word a = old

/-! ## Control, status, the backing store and reserved commands -/

/-- R121, R122: codes 0 and 1, by either row: the enable bit, and nothing else. The recorded event outputs are
optional (R185, D37), and that they are kept, and their order, is the model's choice (notes/assumptions/14). -/
def Obligations.DisableAndEnableWriteOnlyTheEnableBit : Prop :=
  ∀ s : State,
    (∀ i : Instr, i = .cacheControlDisable ∨ i = .cacheControl 0 →
      exec i s = .next { s with
        cache := { s.cache with en := false }
        out := { issued := some { cmd := 0b0011#4, code := 0 }, resp := some {}, txns := [], events := [] } }) ∧
    ∀ i : Instr, i = .cacheControlEnable ∨ i = .cacheControl 1 →
      exec i s = .next { s with
        cache := { s.cache with en := true }
        out := { issued := some { cmd := 0b0011#4, code := 1 }, resp := some {}, txns := [], events := [] } }

/-- R124: every code other than 0, 1, 2, by either row, raises InvalidControlCode with that code and changes no state;
a client that executes it has halted with that error, and nothing else of the machine changes. That the client's `pc`
stays is the spec's own decision D19 (R143, R145). The recorded event outputs are optional (R185, D37), and that they
are kept, and their order, is the model's choice (notes/assumptions/14). -/
def Obligations.OtherControlCodesAreInvalid : Prop :=
  ∀ (s : State) (c : Int), c ≠ 0 → c ≠ 1 → c ≠ 2 →
    (∀ i : Instr, i = .cacheControlInvalid c ∨ i = .cacheControl c →
      exec i s = .next { s with
        out :=
          { issued := some { cmd := 0b0011#4, code := c }, resp := some { error := some (.invalidControlCode c) }
            txns := [], events := [.error (.invalidControlCode c)] } }) ∧
    exec (.cache c) s = .next { s with
      client := { s.client with halted := some (.error (.invalidControlCode c)) }
      out :=
        { issued := some { cmd := 0b0011#4, code := c }, resp := some { error := some (.invalidControlCode c) }
          txns := [], events := [.error (.invalidControlCode c)] } }

/-- R129: the status report, every field by its formula over the rationals, and no side effect. Exact rationals, the
size of the dirty set and the order of the tags are the spec's own decisions D23, D15 and D24. -/
def Obligations.StatusReportsByItsFormulas : Prop :=
  ∀ s : State, ∃ t r, exec .status s = .next t ∧ t.out.resp = some { stat := some r } ∧ t.out.txns = [] ∧
    t.mem = s.mem ∧ t.cache = s.cache ∧ t.client = s.client ∧ sameMachine s t ∧
    r.enabled = s.cache.en ∧ r.current = s.cache.ent.length ∧ r.capacity = s.cache.capacity ∧
    r.utilization =
      (if s.cache.capacity = 0 then 0 else (s.cache.ent.length : ℚ) / s.cache.capacity * 100) ∧
    r.dirtyCount = s.cache.dirty.length ∧ r.resident = s.cache.ent.map Entry.tag ∧
    r.hits = s.cache.hits ∧ r.misses = s.cache.misses ∧
    r.hitRate = (if s.cache.hits + s.cache.misses = 0 then 0
      else (s.cache.hits : ℚ) / ((s.cache.hits + s.cache.misses : Nat) : ℚ) * 100) ∧
    r.avgAccessTime = (if s.cache.hits + s.cache.misses = 0 then 0
      else (s.cache.lat : ℚ) / ((s.cache.hits + s.cache.misses : Nat) : ℚ))

/-- R42: MEM_READ answers `M[a]` for an address in bounds and OutOfBounds for any other, and changes no state. That a
direct read makes no memory-port transaction is read from R48 and R49 (notes/assumptions/15). The recorded event
outputs are optional (R185, D37), and that they are kept, and their order, is the model's choice
(notes/assumptions/14). -/
def Obligations.MemReadAnswersTheStoredWord : Prop :=
  ∀ (s : State) (a : Int),
    (0 ≤ a ∧ a < s.mem.capacity → exec (.memRead a) s = .next { s with
      out :=
        { issued := some { cmd := 0b1000#4, addr := a }, resp := some { rdata := some (s.mem.word a) }
          txns := [], events := [] } }) ∧
    (¬ (0 ≤ a ∧ a < s.mem.capacity) → exec (.memRead a) s = .next { s with
      out :=
        { issued := some { cmd := 0b1000#4, addr := a }, resp := some { error := some (.outOfBounds a) }
          txns := [], events := [.error (.outOfBounds a)] } })

/-- R43: MEM_WRITE of an address in bounds and a value in range overwrites that word and nothing else; out of bounds
it answers OutOfBounds, and in bounds with a value out of range ValueOutOfRange, and no word changes. That order of
the tests is the spec's own decision D17. -/
def Obligations.MemWriteChecksAndStores : Prop :=
  ∀ (s : State) (a : Int) (v : Int), s.mem.wf →
    ∃ t, exec (.memWrite a v) s = .next t ∧ t.cache = s.cache ∧ t.client = s.client ∧ sameMachine s t ∧
      (0 ≤ a → a < s.mem.capacity → -2147483648 ≤ v → v ≤ 2147483647 →
        (t.mem.word a).toInt = v ∧ wordsSameBut a s t ∧ t.out.resp = some {}) ∧
      (0 ≤ a → a < s.mem.capacity → (v < -2147483648 ∨ 2147483647 < v) →
        t.mem = s.mem ∧ t.out.resp = some { error := some (.valueOutOfRange v) }) ∧
      ((a < 0 ∨ s.mem.capacity ≤ a) → t.mem = s.mem ∧ t.out.resp = some { error := some (.outOfBounds a) })

/-- R44, R45, R215: MEM_FLUSH makes every word 0, MEM_RESET_TO_INITIAL makes every word that of the snapshot; the
snapshot and the cache are not touched. That the restore cannot fail is the spec's own derivation (R45, from R202). -/
def Obligations.MemFlushAndRestore : Prop :=
  ∀ s : State,
    (∃ t, exec .memFlush s = .next t ∧ (∀ a : Int, s.mem.InBounds a → t.mem.word a = 0#32) ∧
      t.cache = s.cache ∧ t.client = s.client ∧ sameMachine s t ∧ t.out.resp = some {}) ∧
    ∃ t, exec .memResetToInitial s = .next t ∧
      (∀ a : Int, s.mem.InBounds a → t.mem.word a = cellRead a.toNat s.mem.snap) ∧
      t.cache = s.cache ∧ t.client = s.client ∧ sameMachine s t ∧ t.out.resp = some {}

/-- R73: each reserved `cmd` value changes no state and is answered with UnknownOperation (code 4). The rule is the
spec's own decision D18. The recorded event outputs are optional (R185, D37), and that they are kept, and their order,
is the model's choice (notes/assumptions/14). -/
def Obligations.ReservedCommandsAnswerUnknownOperation : Prop :=
  ∀ (s : State) (i : Instr) (c : BitVec 4),
    ((i, c) = (.reserved0, 0b0000#4) ∨ (i, c) = (.reserved7, 0b0111#4) ∨ (i, c) = (.reserved12, 0b1100#4) ∨
      (i, c) = (.reserved13, 0b1101#4) ∨ (i, c) = (.reserved14, 0b1110#4) ∨ (i, c) = (.reserved15, 0b1111#4)) →
    decode (.request { cmd := c }) = .ok i ∧
      ∃ r : Response, r.error = some (.unknownOperation (.cmd c)) ∧ r.err = 4#3 ∧
        exec i s = .next { s with
          out :=
            { issued := some { cmd := c }, resp := some r, txns := []
              events := [.error (.unknownOperation (.cmd c))] } }

/-! ## The client -/

/-- R31: register 0 reads 0 and a write of it changes nothing; a load into it writes no register; a write of another
register is read back, and changes no other register. -/
def Obligations.RegisterZeroIsHardWired : Prop :=
  ∀ (s : State) (v : Word), readReg 0 s = 0#32 ∧ writeReg 0 v s = s ∧
    (∀ (offset : Int) (rs : Reg), ∃ t, exec (.lw 0 offset rs) s = .next t ∧ t.client.regs = s.client.regs) ∧
    ∀ rd : Reg, rd ≠ 0 → readReg rd (writeReg rd v s) = v ∧ ∀ r : Reg, r ≠ rd → readReg r (writeReg rd v s) = readReg r s

/-- R151, R152, R153, R162: ADD, ADDI and SUB whose exact result fits a `Word` write it to `Rd` (a write of R0 is
discarded) and advance `pc`, and no other state changes; an exact result that is no `Word` has no defined behaviour
and the model refuses the instruction. SUB's meaning is from general knowledge (D29). The refusal is the spec's own
decision D25. That a step without a command leaves the recorded outputs empty is the model's choice
(notes/assumptions/14). -/
def Obligations.ArithmeticWritesTheExactResult : Prop :=
  ∀ (s : State) (rd rs rt : Reg) (imm : Int) (i : Instr) (v : Int),
    ((i, v) = (.add rd rs rt, regValue rs s + regValue rt s) ∨ (i, v) = (.addi rd rs imm, regValue rs s + imm) ∨
      (i, v) = (.sub rd rs rt, regValue rs s - regValue rt s)) →
    (-2147483648 ≤ v → v ≤ 2147483647 →
      ∃ (w : Word) (t : State), w.toInt = v ∧ exec i s = .next t ∧ regWritten rd w s t ∧
        t.client.pc = s.client.pc + s.params.instrSize ∧ t.client.halted = s.client.halted ∧
        t.mem = s.mem ∧ t.cache = s.cache ∧ sameMachine s t ∧ t.out = {}) ∧
    ((v < -2147483648 ∨ 2147483647 < v) → exec i s = .refused (.resultNotWord v))

/-- R154: SLT writes 1 when `x[Rs] < x[Rt]` as signed integers and 0 otherwise, and advances `pc`; no other state
changes. Its meaning is from general knowledge (D29). That a step without a command leaves the recorded outputs empty
is the model's choice (notes/assumptions/14). -/
def Obligations.SltComparesSigned : Prop :=
  ∀ (s : State) (rd rs rt : Reg), ∃ (w : Word) (t : State), exec (.slt rd rs rt) s = .next t ∧
    w.toInt = (if regValue rs s < regValue rt s then 1 else 0) ∧ regWritten rd w s t ∧
    t.client.pc = s.client.pc + s.params.instrSize ∧ t.client.halted = s.client.halted ∧
    t.mem = s.mem ∧ t.cache = s.cache ∧ sameMachine s t ∧ t.out = {}

/-- R155: BNE with different register values goes to `base + offset * INSTR_SIZE`, the base by BRANCH_BASE; with equal
values it advances; only `pc` changes. The condition is from general knowledge (D29). The base is the spec's own
decision D28. That a step without a command leaves the recorded outputs empty is the model's choice
(notes/assumptions/14). -/
def Obligations.BneBranchesWhenDifferent : Prop :=
  ∀ (s : State) (rs rt : Reg) (offset : Int), ∃ t, exec (.bne rs rt offset) s = .next t ∧
    (readReg rs s ≠ readReg rt s →
      (s.params.branchBase = .self → t.client.pc = s.client.pc + offset * s.params.instrSize) ∧
      (s.params.branchBase = .next →
        t.client.pc = s.client.pc + s.params.instrSize + offset * s.params.instrSize)) ∧
    (readReg rs s = readReg rt s → t.client.pc = s.client.pc + s.params.instrSize) ∧
    t.client.regs = s.client.regs ∧ t.client.halted = s.client.halted ∧
    t.mem = s.mem ∧ t.cache = s.cache ∧ sameMachine s t ∧ t.out = {}

/-- R156, R158: J sets `pc` to `target * INSTR_SIZE`; HALT halts the run with `pc` kept; nothing else changes, and
nothing is flushed (R161). The scaling of the target and the `pc` of HALT are the spec's own decision D26. That a step
without a command leaves the recorded outputs empty is the model's choice (notes/assumptions/14). -/
def Obligations.JumpAndHalt : Prop :=
  ∀ (s : State) (target : Int),
    exec (.j target) s = .next { s with
      client := { s.client with pc := target * s.params.instrSize }, out := {} } ∧
    exec .halt s = .next { s with client := { s.client with halted := some .halt }, out := {} }

/-- R157, R162: JAL saves `pc + INSTR_SIZE` in the return-address register and jumps, where that address fits a
`Word`, and is refused where it does not; no other state changes. The refusal is the spec's own decision D25. That a
step without a command leaves the recorded outputs empty is the model's choice (notes/assumptions/14). -/
def Obligations.JalSavesTheReturnAddress : Prop :=
  ∀ (s : State) (target : Int),
    (-2147483648 ≤ s.client.pc + s.params.instrSize → s.client.pc + s.params.instrSize ≤ 2147483647 →
      ∃ (w : Word) (t : State), exec (.jal target) s = .next t ∧ w.toInt = s.client.pc + s.params.instrSize ∧
        regWritten s.params.raIndex w s t ∧ t.client.pc = target * s.params.instrSize ∧
        t.client.halted = s.client.halted ∧ t.mem = s.mem ∧ t.cache = s.cache ∧ sameMachine s t ∧ t.out = {}) ∧
    ((s.client.pc + s.params.instrSize < -2147483648 ∨ 2147483647 < s.client.pc + s.params.instrSize) →
      exec (.jal target) s = .refused (.resultNotWord (s.client.pc + s.params.instrSize)))

/-- R141: LW of an address that is resident (cache enabled) or in bounds loads the value `cache_read` answers into
`Rt` (discarded for R0) and advances `pc`; the store is unchanged. -/
def Obligations.LoadWordLoadsWhatCacheReadAnswers : Prop :=
  ∀ (s : State) (rt rs : Reg) (offset : Int),
    (s.mem.InBounds (regValue rs s + offset) ∨
      (s.cache.en = true ∧ s.cache.resident (regValue rs s + offset))) →
    ∃ (t : State) (v : Word), exec (.lw rt offset rs) s = .next t ∧ t.out.resp = some { rdata := some v } ∧
      (s.cache.en = true → ∀ n d, lookup (regValue rs s + offset) s.cache.ent = some (n, d) → v = d) ∧
      ((s.cache.en = false ∨ ¬ s.cache.resident (regValue rs s + offset)) →
        v = s.mem.word (regValue rs s + offset)) ∧
      regWritten rt v s t ∧ t.client.pc = s.client.pc + s.params.instrSize ∧
      t.client.halted = s.client.halted ∧ t.mem = s.mem ∧ t.cache.dirty = s.cache.dirty ∧
      t.cache.en = s.cache.en ∧ sameMachine s t

/-- R142: SW with the cache enabled stores into the cache for every address; with it disabled, for an address in
bounds, into that word of the store and no other. `pc` advances and no register changes. -/
def Obligations.StoreWordStoresTheRegister : Prop :=
  ∀ (s : State) (rt rs : Reg) (offset : Int), s.mem.wf →
    (s.cache.en = true ∨ s.mem.InBounds (regValue rs s + offset)) →
    ∃ t : State, exec (.sw rt offset rs) s = .next t ∧
      (s.cache.en = true → t.mem = s.mem ∧
        t.cache.ent = installed s.cache.capacity s.cache.ent (regValue rs s + offset) (readReg rt s) ∧
        ∀ b : Int, b ∈ t.cache.dirty ↔ b = regValue rs s + offset ∨ b ∈ s.cache.dirty) ∧
      (s.cache.en = false → t.cache = s.cache ∧ t.mem.word (regValue rs s + offset) = readReg rt s ∧
        wordsSameBut (regValue rs s + offset) s t) ∧
      countersSame s.cache t.cache ∧ t.cache.en = s.cache.en ∧ t.client.regs = s.client.regs ∧
      t.client.pc = s.client.pc + s.params.instrSize ∧ t.client.halted = s.client.halted ∧ sameMachine s t

/-- R141, R142, R171: an LW that is neither a hit nor in bounds, and an SW with the cache disabled out of bounds, halt the
run with OutOfBounds of the effective address; no register, not `pc`, and no word of the store is written. -/
def Obligations.OutOfBoundsLoadAndStoreHalt : Prop :=
  ∀ (s : State) (rt rs : Reg) (offset : Int), ¬ s.mem.InBounds (regValue rs s + offset) →
    ((s.cache.en = false ∨ ¬ s.cache.resident (regValue rs s + offset)) →
      ∃ t, exec (.lw rt offset rs) s = .next t ∧ t.mem = s.mem ∧ t.cache.ent = s.cache.ent ∧
        t.cache.dirty = s.cache.dirty ∧
        t.client = { s.client with halted := some (.error (.outOfBounds (regValue rs s + offset))) }) ∧
    (s.cache.en = false →
      ∃ t, exec (.sw rt offset rs) s = .next t ∧ t.mem = s.mem ∧ t.cache = s.cache ∧
        t.client = { s.client with halted := some (.error (.outOfBounds (regValue rs s + offset))) })

/-- R143: CACHE with code 0, 1 or 2 (a flush that can sync) has the command's effect on the cache and advances `pc`;
with another code it halts the run with InvalidControlCode and changes no other state of the machine. -/
def Obligations.CacheInstructionControlsTheCache : Prop :=
  ∀ s : State,
    (∃ t, exec (.cache 0) s = .next t ∧ t.cache = { s.cache with en := false } ∧ t.mem = s.mem ∧
      t.client = { s.client with pc := s.client.pc + s.params.instrSize } ∧ sameMachine s t) ∧
    (∃ t, exec (.cache 1) s = .next t ∧ t.cache = { s.cache with en := true } ∧ t.mem = s.mem ∧
      t.client = { s.client with pc := s.client.pc + s.params.instrSize } ∧ sameMachine s t) ∧
    (s.mem.wf → s.cache.unique → s.canSync →
      ∃ t, exec (.cache 2) s = .next t ∧ t.cache = { s.cache with dirty := [], ent := [] } ∧ syncedWords s t ∧
        t.client = { s.client with pc := s.client.pc + s.params.instrSize } ∧ sameMachine s t) ∧
    ∀ c : Int, c ≠ 0 → c ≠ 1 → c ≠ 2 →
      ∃ t, exec (.cache c) s = .next t ∧ t.cache = s.cache ∧ t.mem = s.mem ∧
        t.client = { s.client with halted := some (.error (.invalidControlCode c)) } ∧ sameMachine s t
end

