-- ==== Sys2Proof/Laws/State.lean ====
section
/-! SUPPORT. One lemma per field per update of the state, each true by definition, so that no proof unfolds a record
update. -/

namespace Sys2Proof.Machine

variable (s : State)

/-! ## withMem -/

@[simp] theorem withMem_params (m : Memory) : (s.withMem m).params = s.params := rfl
@[simp] theorem withMem_mem (m : Memory) : (s.withMem m).mem = m := rfl
@[simp] theorem withMem_cache (m : Memory) : (s.withMem m).cache = s.cache := rfl
@[simp] theorem withMem_client (m : Memory) : (s.withMem m).client = s.client := rfl
@[simp] theorem withMem_prog (m : Memory) : (s.withMem m).prog = s.prog := rfl
@[simp] theorem withMem_turns (m : Memory) : (s.withMem m).turns = s.turns := rfl
@[simp] theorem withMem_out (m : Memory) : (s.withMem m).out = s.out := rfl

/-! ## withCache -/

@[simp] theorem withCache_params (c : Cache) : (s.withCache c).params = s.params := rfl
@[simp] theorem withCache_mem (c : Cache) : (s.withCache c).mem = s.mem := rfl
@[simp] theorem withCache_cache (c : Cache) : (s.withCache c).cache = c := rfl
@[simp] theorem withCache_client (c : Cache) : (s.withCache c).client = s.client := rfl
@[simp] theorem withCache_prog (c : Cache) : (s.withCache c).prog = s.prog := rfl
@[simp] theorem withCache_turns (c : Cache) : (s.withCache c).turns = s.turns := rfl
@[simp] theorem withCache_out (c : Cache) : (s.withCache c).out = s.out := rfl

/-! ## withClient -/

@[simp] theorem withClient_params (c : Client) : (s.withClient c).params = s.params := rfl
@[simp] theorem withClient_mem (c : Client) : (s.withClient c).mem = s.mem := rfl
@[simp] theorem withClient_cache (c : Client) : (s.withClient c).cache = s.cache := rfl
@[simp] theorem withClient_client (c : Client) : (s.withClient c).client = c := rfl
@[simp] theorem withClient_prog (c : Client) : (s.withClient c).prog = s.prog := rfl
@[simp] theorem withClient_turns (c : Client) : (s.withClient c).turns = s.turns := rfl
@[simp] theorem withClient_out (c : Client) : (s.withClient c).out = s.out := rfl

/-! ## withOut -/

@[simp] theorem withOut_params (o : Outputs) : (s.withOut o).params = s.params := rfl
@[simp] theorem withOut_mem (o : Outputs) : (s.withOut o).mem = s.mem := rfl
@[simp] theorem withOut_cache (o : Outputs) : (s.withOut o).cache = s.cache := rfl
@[simp] theorem withOut_client (o : Outputs) : (s.withOut o).client = s.client := rfl
@[simp] theorem withOut_prog (o : Outputs) : (s.withOut o).prog = s.prog := rfl
@[simp] theorem withOut_turns (o : Outputs) : (s.withOut o).turns = s.turns := rfl
@[simp] theorem withOut_out (o : Outputs) : (s.withOut o).out = o := rfl

/-! ## withTurns -/

@[simp] theorem withTurns_params (t : List Turn) : (s.withTurns t).params = s.params := rfl
@[simp] theorem withTurns_mem (t : List Turn) : (s.withTurns t).mem = s.mem := rfl
@[simp] theorem withTurns_cache (t : List Turn) : (s.withTurns t).cache = s.cache := rfl
@[simp] theorem withTurns_client (t : List Turn) : (s.withTurns t).client = s.client := rfl
@[simp] theorem withTurns_prog (t : List Turn) : (s.withTurns t).prog = s.prog := rfl
@[simp] theorem withTurns_turns (t : List Turn) : (s.withTurns t).turns = t := rfl
@[simp] theorem withTurns_out (t : List Turn) : (s.withTurns t).out = s.out := rfl

/-! ## logTxn -/

@[simp] theorem logTxn_params (t : Txn) : (logTxn t s).params = s.params := rfl
@[simp] theorem logTxn_mem (t : Txn) : (logTxn t s).mem = s.mem := rfl
@[simp] theorem logTxn_cache (t : Txn) : (logTxn t s).cache = s.cache := rfl
@[simp] theorem logTxn_client (t : Txn) : (logTxn t s).client = s.client := rfl
@[simp] theorem logTxn_prog (t : Txn) : (logTxn t s).prog = s.prog := rfl
@[simp] theorem logTxn_turns (t : Txn) : (logTxn t s).turns = s.turns := rfl
@[simp] theorem logTxn_out_issued (t : Txn) : (logTxn t s).out.issued = s.out.issued := rfl
@[simp] theorem logTxn_out_resp (t : Txn) : (logTxn t s).out.resp = s.out.resp := rfl
@[simp] theorem logTxn_out_txns (t : Txn) : (logTxn t s).out.txns = s.out.txns ++ [t] := rfl
@[simp] theorem logTxn_out_events (t : Txn) : (logTxn t s).out.events = s.out.events := rfl

/-! ## logEvents -/

@[simp] theorem logEvents_params (es : List Event) : (logEvents es s).params = s.params := rfl
@[simp] theorem logEvents_mem (es : List Event) : (logEvents es s).mem = s.mem := rfl
@[simp] theorem logEvents_cache (es : List Event) : (logEvents es s).cache = s.cache := rfl
@[simp] theorem logEvents_client (es : List Event) : (logEvents es s).client = s.client := rfl
@[simp] theorem logEvents_prog (es : List Event) : (logEvents es s).prog = s.prog := rfl
@[simp] theorem logEvents_turns (es : List Event) : (logEvents es s).turns = s.turns := rfl
@[simp] theorem logEvents_out_issued (es : List Event) : (logEvents es s).out.issued = s.out.issued := rfl
@[simp] theorem logEvents_out_resp (es : List Event) : (logEvents es s).out.resp = s.out.resp := rfl
@[simp] theorem logEvents_out_txns (es : List Event) : (logEvents es s).out.txns = s.out.txns := rfl
@[simp] theorem logEvents_out_events (es : List Event) : (logEvents es s).out.events = s.out.events ++ es := rfl

/-! ## idlePorts -/

@[simp] theorem idlePorts_params : (idlePorts s).params = s.params := rfl
@[simp] theorem idlePorts_mem : (idlePorts s).mem = s.mem := rfl
@[simp] theorem idlePorts_cache : (idlePorts s).cache = s.cache := rfl
@[simp] theorem idlePorts_client : (idlePorts s).client = s.client := rfl
@[simp] theorem idlePorts_prog : (idlePorts s).prog = s.prog := rfl
@[simp] theorem idlePorts_turns : (idlePorts s).turns = s.turns := rfl
@[simp] theorem idlePorts_out_issued : (idlePorts s).out.issued = none := rfl
@[simp] theorem idlePorts_out_resp : (idlePorts s).out.resp = none := rfl
@[simp] theorem idlePorts_out_txns : (idlePorts s).out.txns = [] := rfl
@[simp] theorem idlePorts_out_events : (idlePorts s).out.events = [] := rfl

/-! ## setPc -/

@[simp] theorem setPc_params (t : Int) : (setPc t s).params = s.params := rfl
@[simp] theorem setPc_mem (t : Int) : (setPc t s).mem = s.mem := rfl
@[simp] theorem setPc_cache (t : Int) : (setPc t s).cache = s.cache := rfl
@[simp] theorem setPc_client_regs (t : Int) : (setPc t s).client.regs = s.client.regs := rfl
@[simp] theorem setPc_client_pc (t : Int) : (setPc t s).client.pc = t := rfl
@[simp] theorem setPc_client_halted (t : Int) : (setPc t s).client.halted = s.client.halted := rfl
@[simp] theorem setPc_prog (t : Int) : (setPc t s).prog = s.prog := rfl
@[simp] theorem setPc_turns (t : Int) : (setPc t s).turns = s.turns := rfl
@[simp] theorem setPc_out (t : Int) : (setPc t s).out = s.out := rfl

/-! ## advance -/

@[simp] theorem advance_params : (advance s).params = s.params := rfl
@[simp] theorem advance_mem : (advance s).mem = s.mem := rfl
@[simp] theorem advance_cache : (advance s).cache = s.cache := rfl
@[simp] theorem advance_client_regs : (advance s).client.regs = s.client.regs := rfl
@[simp] theorem advance_client_pc : (advance s).client.pc = s.client.pc + s.params.instrSize := rfl
@[simp] theorem advance_client_halted : (advance s).client.halted = s.client.halted := rfl
@[simp] theorem advance_prog : (advance s).prog = s.prog := rfl
@[simp] theorem advance_turns : (advance s).turns = s.turns := rfl
@[simp] theorem advance_out : (advance s).out = s.out := rfl

/-! ## haltRun -/

@[simp] theorem haltRun_params (r : HaltReason) : (haltRun r s).params = s.params := rfl
@[simp] theorem haltRun_mem (r : HaltReason) : (haltRun r s).mem = s.mem := rfl
@[simp] theorem haltRun_cache (r : HaltReason) : (haltRun r s).cache = s.cache := rfl
@[simp] theorem haltRun_client_regs (r : HaltReason) : (haltRun r s).client.regs = s.client.regs := rfl
@[simp] theorem haltRun_client_pc (r : HaltReason) : (haltRun r s).client.pc = s.client.pc := rfl
@[simp] theorem haltRun_client_halted (r : HaltReason) : (haltRun r s).client.halted = some r := rfl
@[simp] theorem haltRun_prog (r : HaltReason) : (haltRun r s).prog = s.prog := rfl
@[simp] theorem haltRun_turns (r : HaltReason) : (haltRun r s).turns = s.turns := rfl
@[simp] theorem haltRun_out (r : HaltReason) : (haltRun r s).out = s.out := rfl

/-! ## takeError -/

@[simp] theorem takeError_params (e : Error) : (takeError e s).params = s.params := rfl
@[simp] theorem takeError_mem (e : Error) : (takeError e s).mem = s.mem := rfl
@[simp] theorem takeError_cache (e : Error) : (takeError e s).cache = s.cache := rfl
@[simp] theorem takeError_client_regs (e : Error) : (takeError e s).client.regs = s.client.regs := rfl
@[simp] theorem takeError_client_pc (e : Error) : (takeError e s).client.pc = s.client.pc := rfl
@[simp] theorem takeError_client_halted (e : Error) : (takeError e s).client.halted = some (.error e) := rfl
@[simp] theorem takeError_prog (e : Error) : (takeError e s).prog = s.prog := rfl
@[simp] theorem takeError_turns (e : Error) : (takeError e s).turns = s.turns := rfl
@[simp] theorem takeError_out (e : Error) : (takeError e s).out = s.out := rfl

/-! ## markDirty -/

@[simp] theorem markDirty_params (a : Int) : (markDirty a s).params = s.params := rfl
@[simp] theorem markDirty_mem (a : Int) : (markDirty a s).mem = s.mem := rfl
@[simp] theorem markDirty_cache_capacity (a : Int) : (markDirty a s).cache.capacity = s.cache.capacity := rfl
@[simp] theorem markDirty_cache_ent (a : Int) : (markDirty a s).cache.ent = s.cache.ent := rfl
@[simp] theorem markDirty_cache_dirty (a : Int) : (markDirty a s).cache.dirty = addrInsert a s.cache.dirty := rfl
@[simp] theorem markDirty_cache_en (a : Int) : (markDirty a s).cache.en = s.cache.en := rfl
@[simp] theorem markDirty_cache_hits (a : Int) : (markDirty a s).cache.hits = s.cache.hits := rfl
@[simp] theorem markDirty_cache_misses (a : Int) : (markDirty a s).cache.misses = s.cache.misses := rfl
@[simp] theorem markDirty_cache_total (a : Int) : (markDirty a s).cache.total = s.cache.total := rfl
@[simp] theorem markDirty_cache_lat (a : Int) : (markDirty a s).cache.lat = s.cache.lat := rfl
@[simp] theorem markDirty_client (a : Int) : (markDirty a s).client = s.client := rfl
@[simp] theorem markDirty_prog (a : Int) : (markDirty a s).prog = s.prog := rfl
@[simp] theorem markDirty_turns (a : Int) : (markDirty a s).turns = s.turns := rfl
@[simp] theorem markDirty_out (a : Int) : (markDirty a s).out = s.out := rfl

/-! ## insertPair -/

@[simp] theorem insertPair_params (a : Int) (v : Word) : (insertPair a v s).params = s.params := rfl
@[simp] theorem insertPair_mem (a : Int) (v : Word) : (insertPair a v s).mem = s.mem := rfl
@[simp] theorem insertPair_cache_capacity (a : Int) (v : Word) : (insertPair a v s).cache.capacity = s.cache.capacity := rfl
@[simp] theorem insertPair_cache_ent (a : Int) (v : Word) : (insertPair a v s).cache.ent = (s.cache.insert a v).ent := rfl
@[simp] theorem insertPair_cache_dirty (a : Int) (v : Word) : (insertPair a v s).cache.dirty = s.cache.dirty := rfl
@[simp] theorem insertPair_cache_en (a : Int) (v : Word) : (insertPair a v s).cache.en = s.cache.en := rfl
@[simp] theorem insertPair_cache_hits (a : Int) (v : Word) : (insertPair a v s).cache.hits = s.cache.hits := rfl
@[simp] theorem insertPair_cache_misses (a : Int) (v : Word) : (insertPair a v s).cache.misses = s.cache.misses := rfl
@[simp] theorem insertPair_cache_total (a : Int) (v : Word) : (insertPair a v s).cache.total = s.cache.total := rfl
@[simp] theorem insertPair_cache_lat (a : Int) (v : Word) : (insertPair a v s).cache.lat = s.cache.lat := rfl
@[simp] theorem insertPair_client (a : Int) (v : Word) : (insertPair a v s).client = s.client := rfl
@[simp] theorem insertPair_prog (a : Int) (v : Word) : (insertPair a v s).prog = s.prog := rfl
@[simp] theorem insertPair_turns (a : Int) (v : Word) : (insertPair a v s).turns = s.turns := rfl
@[simp] theorem insertPair_out_issued (a : Int) (v : Word) : (insertPair a v s).out.issued = s.out.issued := rfl
@[simp] theorem insertPair_out_resp (a : Int) (v : Word) : (insertPair a v s).out.resp = s.out.resp := rfl
@[simp] theorem insertPair_out_txns (a : Int) (v : Word) : (insertPair a v s).out.txns = s.out.txns := rfl
@[simp] theorem insertPair_out_events (a : Int) (v : Word) : (insertPair a v s).out.events = s.out.events ++ evictEvents s.cache a v := rfl

/-! ## countHit -/

@[simp] theorem countHit_params (a : Int) : (countHit a s).params = s.params := rfl
@[simp] theorem countHit_mem (a : Int) : (countHit a s).mem = s.mem := rfl
@[simp] theorem countHit_cache_capacity (a : Int) : (countHit a s).cache.capacity = s.cache.capacity := rfl
@[simp] theorem countHit_cache_ent (a : Int) : (countHit a s).cache.ent = s.cache.ent := rfl
@[simp] theorem countHit_cache_dirty (a : Int) : (countHit a s).cache.dirty = s.cache.dirty := rfl
@[simp] theorem countHit_cache_en (a : Int) : (countHit a s).cache.en = s.cache.en := rfl
@[simp] theorem countHit_cache_hits (a : Int) : (countHit a s).cache.hits = s.cache.hits + 1 := rfl
@[simp] theorem countHit_cache_misses (a : Int) : (countHit a s).cache.misses = s.cache.misses := rfl
@[simp] theorem countHit_cache_total (a : Int) : (countHit a s).cache.total = s.cache.total + 1 := rfl
@[simp] theorem countHit_cache_lat (a : Int) : (countHit a s).cache.lat = s.cache.lat + hitLatency := rfl
@[simp] theorem countHit_client (a : Int) : (countHit a s).client = s.client := rfl
@[simp] theorem countHit_prog (a : Int) : (countHit a s).prog = s.prog := rfl
@[simp] theorem countHit_turns (a : Int) : (countHit a s).turns = s.turns := rfl
@[simp] theorem countHit_out_issued (a : Int) : (countHit a s).out.issued = s.out.issued := rfl
@[simp] theorem countHit_out_resp (a : Int) : (countHit a s).out.resp = s.out.resp := rfl
@[simp] theorem countHit_out_txns (a : Int) : (countHit a s).out.txns = s.out.txns := rfl
@[simp] theorem countHit_out_events (a : Int) : (countHit a s).out.events = s.out.events ++ [.hit a] := rfl

/-! ## countMiss -/

@[simp] theorem countMiss_params (a : Int) : (countMiss a s).params = s.params := rfl
@[simp] theorem countMiss_mem (a : Int) : (countMiss a s).mem = s.mem := rfl
@[simp] theorem countMiss_cache_capacity (a : Int) : (countMiss a s).cache.capacity = s.cache.capacity := rfl
@[simp] theorem countMiss_cache_ent (a : Int) : (countMiss a s).cache.ent = s.cache.ent := rfl
@[simp] theorem countMiss_cache_dirty (a : Int) : (countMiss a s).cache.dirty = s.cache.dirty := rfl
@[simp] theorem countMiss_cache_en (a : Int) : (countMiss a s).cache.en = s.cache.en := rfl
@[simp] theorem countMiss_cache_hits (a : Int) : (countMiss a s).cache.hits = s.cache.hits := rfl
@[simp] theorem countMiss_cache_misses (a : Int) : (countMiss a s).cache.misses = s.cache.misses + 1 := rfl
@[simp] theorem countMiss_cache_total (a : Int) : (countMiss a s).cache.total = s.cache.total + 1 := rfl
@[simp] theorem countMiss_cache_lat (a : Int) : (countMiss a s).cache.lat = s.cache.lat + missLatency := rfl
@[simp] theorem countMiss_client (a : Int) : (countMiss a s).client = s.client := rfl
@[simp] theorem countMiss_prog (a : Int) : (countMiss a s).prog = s.prog := rfl
@[simp] theorem countMiss_turns (a : Int) : (countMiss a s).turns = s.turns := rfl
@[simp] theorem countMiss_out_issued (a : Int) : (countMiss a s).out.issued = s.out.issued := rfl
@[simp] theorem countMiss_out_resp (a : Int) : (countMiss a s).out.resp = s.out.resp := rfl
@[simp] theorem countMiss_out_txns (a : Int) : (countMiss a s).out.txns = s.out.txns := rfl
@[simp] theorem countMiss_out_events (a : Int) : (countMiss a s).out.events = s.out.events ++ [.miss a] := rfl

/-! ## writeReg -/

@[simp] theorem writeReg_params (i : Reg) (v : Word) : (writeReg i v s).params = s.params := by unfold writeReg; split <;> rfl
@[simp] theorem writeReg_mem (i : Reg) (v : Word) : (writeReg i v s).mem = s.mem := by unfold writeReg; split <;> rfl
@[simp] theorem writeReg_cache (i : Reg) (v : Word) : (writeReg i v s).cache = s.cache := by unfold writeReg; split <;> rfl
@[simp] theorem writeReg_prog (i : Reg) (v : Word) : (writeReg i v s).prog = s.prog := by unfold writeReg; split <;> rfl
@[simp] theorem writeReg_turns (i : Reg) (v : Word) : (writeReg i v s).turns = s.turns := by unfold writeReg; split <;> rfl
@[simp] theorem writeReg_out (i : Reg) (v : Word) : (writeReg i v s).out = s.out := by unfold writeReg; split <;> rfl
@[simp] theorem writeReg_client_pc (i : Reg) (v : Word) : (writeReg i v s).client.pc = s.client.pc := by unfold writeReg; split <;> rfl
@[simp] theorem writeReg_client_halted (i : Reg) (v : Word) : (writeReg i v s).client.halted = s.client.halted := by unfold writeReg; split <;> rfl

/-! ## Reading registers -/

@[simp] theorem readReg_zero : readReg 0 s = 0#32 := rfl

/-- A register read depends on the client's registers only. -/
theorem readReg_congr {s t : State} (h : t.client.regs = s.client.regs) (r : Reg) : readReg r t = readReg r s := by
  unfold readReg; rw [h]

/-- R31: what every register reads after a write of `i`. -/
theorem readReg_writeReg (i : Reg) (v : Word) (r : Reg) :
    readReg r (writeReg i v s) = if r = 0 then 0#32 else if r = i then v else readReg r s := by
  by_cases hr : r = 0
  · simp [hr]
  · by_cases hi : i = 0
    · subst hi; simp [readReg, writeReg, hr]
    · by_cases h : r = i
      · subst h; simp [readReg, writeReg, hr]
      · have hv : (i : Nat) ≠ (r : Nat) := fun e => h (Fin.ext e.symm)
        simp [readReg, writeReg, hr, hi, h, hv]

/-! ## Results -/

variable {α β : Type}

@[simp] theorem Res.bind_ok (a : α) (f : α → State → Res β) : (Res.ok a s).bind f = f a s := rfl
@[simp] theorem Res.bind_raise (e : Error) (f : α → State → Res β) : (Res.raise (α := α) e s).bind f = .raise e s := rfl
@[simp] theorem Res.state_ok (a : α) : (Res.ok a s).state = s := rfl
@[simp] theorem Res.state_raise (e : Error) : (Res.raise (α := α) e s).state = s := rfl

end Sys2Proof.Machine
end

