-- ==== Sys2Proof/Laws/Memory.lean ====
section
/-! SUPPORT. The words of the store: read after write, the canonical form, and that every operation over the memory
keeps it. -/

namespace Sys2Proof.Machine

/-! ## Cells -/

theorem cellsWf_tail {n : Nat} {c : Cell} {l : List Cell} (h : cellsWf n (c :: l)) : cellsWf n l :=
  ⟨(List.pairwise_cons.mp h.1).2, fun x hx => h.2 x (List.mem_cons_of_mem _ hx)⟩

/-- Below every listed address a canonical list reads 0. -/
theorem cellRead_below {n k : Nat} : ∀ {l : List Cell}, cellsWf n l → (∀ c ∈ l, k < c.1) → cellRead k l = 0#32
  | [], _, _ => rfl
  | (a, w) :: t, _, hk => by
    have ha : k < a := hk (a, w) (List.mem_cons_self ..)
    have hne : a ≠ k := by omega
    simp [cellRead, ha, hne]

/-- R43: reading a word after a write gives the value written at its address and the old word elsewhere. -/
theorem cellRead_cellWrite {n : Nat} (k : Nat) (w : Word) :
    ∀ {l : List Cell}, cellsWf n l → ∀ j, cellRead j (cellWrite k w l) = if j = k then w else cellRead j l
  | [], _, j => by
    by_cases hw : w = 0#32 <;> by_cases hj : j = k
    · simp [cellWrite, cellRead, hw]
    · simp [cellWrite, cellRead, hw]
    · simp [cellWrite, cellRead, hw, hj]
    · simp [cellWrite, cellRead, hw, hj, Ne.symm hj]
  | (a, x) :: t, h, j => by
    have ht := cellsWf_tail h
    have hlt : ∀ c ∈ t, a < c.1 := (List.pairwise_cons.mp h.1).1
    by_cases hak : a = k
    · subst hak
      by_cases hw : w = 0#32
      · subst hw
        by_cases hj : j = a
        · subst hj
          simp [cellWrite, cellRead_below ht hlt]
        · by_cases hja : j < a
          · simp [cellWrite, cellRead, hj, Ne.symm hj, hja,
              cellRead_below ht (fun c hc => lt_trans hja (hlt c hc))]
          · simp [cellWrite, cellRead, hj, Ne.symm hj, hja]
      · by_cases hj : j = a
        · simp [cellWrite, cellRead, hw, hj]
        · simp [cellWrite, cellRead, hw, hj, Ne.symm hj]
    · by_cases hka : k < a
      · by_cases hw : w = 0#32
        · subst hw
          by_cases hj : j = k
          · subst hj; simp [cellWrite, cellRead, hak, hka]
          · simp [cellWrite, hak, hka, hj]
        · by_cases hj : j = k
          · subst hj; simp [cellWrite, cellRead, hak, hka, hw]
          · by_cases hjk : j < k
            · have h1 : ¬ a = j := by omega
              have h2 : j < a := by omega
              simp [cellWrite, cellRead, hak, hka, hw, hj, Ne.symm hj, hjk, h1, h2]
            · simp [cellWrite, cellRead, hak, hka, hw, hj, Ne.symm hj, hjk]
      · have ih := cellRead_cellWrite k w ht j
        by_cases hja : a = j
        · subst hja; simp [cellWrite, cellRead, hak, hka]
        · by_cases hjl : j < a
          · have h1 : ¬ j = k := by omega
            simp [cellWrite, cellRead, hak, hka, hja, hjl, h1]
          · simp [cellWrite, cellRead, hak, hka, hja, hjl, ih]

/-- Where the addresses of a written list come from. -/
theorem mem_cellWrite {k : Nat} {w : Word} {c : Cell} :
    ∀ {l : List Cell}, c ∈ cellWrite k w l → c ∈ l ∨ (c = (k, w) ∧ w ≠ 0#32)
  | [], h => by
    by_cases hw : w = 0#32 <;> simp [cellWrite, hw] at h
    exact .inr ⟨h, hw⟩
  | (a, x) :: t, h => by
    unfold cellWrite at h
    split_ifs at h with h1 h2 h3 h4
    · exact .inl (List.mem_cons_of_mem _ h)
    · rcases List.mem_cons.mp h with h | h
      · exact .inr ⟨h, h2⟩
      · exact .inl (List.mem_cons_of_mem _ h)
    · exact .inl h
    · rcases List.mem_cons.mp h with h | h
      · exact .inr ⟨h, h4⟩
      · exact .inl h
    · rcases List.mem_cons.mp h with h | h
      · exact .inl (h ▸ List.mem_cons_self ..)
      · rcases mem_cellWrite h with h | h
        · exact .inl (List.mem_cons_of_mem _ h)
        · exact .inr h

/-- A write in bounds keeps the canonical form. -/
theorem cellsWf_cellWrite {n k : Nat} (hk : k < n) (w : Word) :
    ∀ {l : List Cell}, cellsWf n l → cellsWf n (cellWrite k w l) := by
  intro l h
  refine ⟨?_, fun c hc => ?_⟩
  · induction l with
    | nil => by_cases hw : w = 0#32 <;> simp [cellWrite, hw]
    | cons c t ih =>
      obtain ⟨a, x⟩ := c
      have ht := cellsWf_tail h
      have hlt : ∀ c ∈ t, a < c.1 := (List.pairwise_cons.mp h.1).1
      unfold cellWrite
      split_ifs with h1 h2 h3 h4
      · exact ht.1
      · subst h1; exact List.pairwise_cons.mpr ⟨hlt, ht.1⟩
      · exact h.1
      · refine List.pairwise_cons.mpr ⟨fun c hc => ?_, h.1⟩
        rcases List.mem_cons.mp hc with hc | hc
        · subst hc; exact h3
        · exact lt_trans h3 (hlt c hc)
      · refine List.pairwise_cons.mpr ⟨fun c hc => ?_, ih ht⟩
        rcases mem_cellWrite hc with hc | ⟨hc, -⟩
        · exact hlt c hc
        · subst hc; show a < k; omega
  · rcases mem_cellWrite hc with hc | ⟨hc, hw⟩
    · exact h.2 c hc
    · subst hc; exact ⟨hk, hw⟩

/-! ## The store -/

theorem toNat_lt_capacity {m : Memory} {a : Int} (h : m.InBounds a) : a.toNat < m.capacity := by
  have := h.1; have := h.2; omega

/-- Two addresses in bounds with the same index are the same address. -/
theorem toNat_inj {m : Memory} {a b : Int} (ha : m.InBounds a) (hb : m.InBounds b) (h : a.toNat = b.toNat) : a = b := by
  have := ha.1; have := hb.1; omega

/-- R43: a word read back after a write. -/
theorem word_setWord {m : Memory} (hm : m.wf) {a b : Int} (w : Word) (ha : m.InBounds a) (hb : m.InBounds b) :
    (m.setWord a w).word b = if b = a then w else m.word b := by
  have h := cellRead_cellWrite a.toNat w hm.1 b.toNat
  by_cases hab : b = a
  · subst hab; simpa [Memory.word, Memory.setWord] using h
  · have : b.toNat ≠ a.toNat := fun e => hab (toNat_inj hb ha e)
    simpa [Memory.word, Memory.setWord, hab, this] using h

@[simp] theorem setWord_capacity (m : Memory) (a : Int) (w : Word) : (m.setWord a w).capacity = m.capacity := rfl
@[simp] theorem setWord_snap (m : Memory) (a : Int) (w : Word) : (m.setWord a w).snap = m.snap := rfl

/-- R23: `M[a] <- w` in bounds keeps the canonical form. -/
theorem wf_setWord {m : Memory} (hm : m.wf) {a : Int} (w : Word) (ha : m.InBounds a) : (m.setWord a w).wf :=
  ⟨cellsWf_cellWrite (toNat_lt_capacity ha) w hm.1, hm.2⟩

/-- R44 and R45 keep the canonical form. -/
theorem wf_cleared {m : Memory} (hm : m.wf) : ({ m with cells := [] } : Memory).wf :=
  ⟨⟨List.Pairwise.nil, by simp⟩, hm.2⟩

theorem wf_restored {m : Memory} (hm : m.wf) : ({ m with cells := m.snap } : Memory).wf := ⟨hm.2, hm.2⟩

/-- The memory right after reset has the canonical form. -/
theorem reset_mem_wf : State.reset.mem.wf := by decide

/-! ## Words -/

theorem wordOfInt?_eq_some {v : Int} {w : Word} : wordOfInt? v = some w ↔ fitsWord v ∧ BitVec.ofInt 32 v = w := by
  unfold wordOfInt?
  split
  · exact ⟨fun h => ⟨‹_›, Option.some.inj h⟩, fun h => congrArg some h.2⟩
  · exact ⟨fun h => by simp at h, fun h => absurd h.1 ‹_›⟩

theorem wordOfInt?_eq_none {v : Int} : wordOfInt? v = none ↔ ¬ fitsWord v := by
  unfold wordOfInt?
  split <;> simp_all

/-- The value of the word of an integer in range is that integer. -/
theorem toInt_ofInt_of_fits {v : Int} (h : fitsWord v) : (BitVec.ofInt 32 v).toInt = v := by
  rw [BitVec.toInt_ofInt]
  have := h.1; have := h.2
  exact Int.bmod_eq_of_le (by omega) (by omega)

/-- Every word's value is in range, and the word is the word of its value. -/
theorem wordOfInt?_toInt (w : Word) : wordOfInt? w.toInt = some w := by
  refine wordOfInt?_eq_some.mpr ⟨⟨?_, ?_⟩, BitVec.ofInt_toInt⟩
  · have := BitVec.le_toInt (x := w); omega
  · have := BitVec.toInt_lt (x := w); omega

/-! ## The memory operations -/

/-- What `Memory.read` does (R42). -/
theorem memoryRead_cases (a : Int) (s : State) :
    (s.mem.InBounds a ∧ memoryRead a s = .ok (s.mem.word a) s) ∨
      (¬ s.mem.InBounds a ∧ memoryRead a s = .raise (.outOfBounds a) s) := by
  by_cases h : s.mem.InBounds a
  · exact .inl ⟨h, if_pos h⟩
  · exact .inr ⟨h, if_neg h⟩

/-- What `Memory.write` does (R43). -/
theorem memoryWrite_cases (a : Int) (v : Int) (s : State) :
    (s.mem.InBounds a ∧ fitsWord v ∧
      memoryWrite a v s = .ok () (s.withMem (s.mem.setWord a (BitVec.ofInt 32 v)))) ∨
    (s.mem.InBounds a ∧ ¬ fitsWord v ∧ memoryWrite a v s = .raise (.valueOutOfRange v) s) ∨
    (¬ s.mem.InBounds a ∧ memoryWrite a v s = .raise (.outOfBounds a) s) := by
  unfold memoryWrite
  by_cases h : s.mem.InBounds a
  · by_cases hv : fitsWord v
    · exact .inl ⟨h, hv, by rw [if_pos h, wordOfInt?_eq_some.mpr ⟨hv, rfl⟩]⟩
    · exact .inr (.inl ⟨h, hv, by rw [if_pos h, wordOfInt?_eq_none.mpr hv]⟩)
  · exact .inr (.inr ⟨h, if_neg h⟩)

/-- What a word read on the memory port does (R48). -/
theorem portRead_cases (a : Int) (s : State) :
    (s.mem.InBounds a ∧
      portRead a s = .ok (s.mem.word a) (logTxn (.read a (some (s.mem.word a))) s)) ∨
    (¬ s.mem.InBounds a ∧ portRead a s = .raise (.outOfBounds a) (logTxn (.read a none) s)) := by
  unfold portRead
  rcases memoryRead_cases a s with ⟨h, e⟩ | ⟨h, e⟩
  · exact .inl ⟨h, by rw [e]⟩
  · exact .inr ⟨h, by rw [e]⟩

/-- What a word write on the memory port does (R48): ValueOutOfRange cannot come back (R43). -/
theorem portWrite_cases (a : Int) (w : Word) (s : State) :
    (s.mem.InBounds a ∧
      portWrite a w s = .ok () (logTxn (.write a w true) (s.withMem (s.mem.setWord a w)))) ∨
    (¬ s.mem.InBounds a ∧ portWrite a w s = .raise (.outOfBounds a) (logTxn (.write a w false) s)) := by
  unfold portWrite
  by_cases h : s.mem.InBounds a
  · exact .inl ⟨h, by simp only [memoryWrite, if_pos h, wordOfInt?_toInt]⟩
  · exact .inr ⟨h, by simp only [memoryWrite, if_neg h]⟩

/-- Every memory operation keeps the canonical form (R23). -/
theorem memoryRead_wf (a : Int) {s : State} (h : s.mem.wf) : (memoryRead a s).state.mem.wf := by
  rcases memoryRead_cases a s with ⟨-, e⟩ | ⟨-, e⟩ <;> rw [e] <;> exact h

theorem memoryWrite_wf (a : Int) (v : Int) {s : State} (h : s.mem.wf) : (memoryWrite a v s).state.mem.wf := by
  rcases memoryWrite_cases a v s with ⟨hb, -, e⟩ | ⟨-, -, e⟩ | ⟨-, e⟩ <;> rw [e]
  · exact wf_setWord h _ hb
  · exact h
  · exact h

theorem memoryFlush_wf {s : State} (h : s.mem.wf) : (memoryFlush s).state.mem.wf := wf_cleared h

theorem memoryResetToInitial_wf {s : State} (h : s.mem.wf) : (memoryResetToInitial s).state.mem.wf := wf_restored h

theorem portRead_wf (a : Int) {s : State} (h : s.mem.wf) : (portRead a s).state.mem.wf := by
  rcases portRead_cases a s with ⟨-, e⟩ | ⟨-, e⟩ <;> rw [e] <;> exact h

theorem portWrite_wf (a : Int) (w : Word) {s : State} (h : s.mem.wf) : (portWrite a w s).state.mem.wf := by
  rcases portWrite_cases a w s with ⟨hb, e⟩ | ⟨-, e⟩ <;> rw [e]
  · exact wf_setWord h _ hb
  · exact h

end Sys2Proof.Machine
end

