-- ==== Sys2Proof/Laws/Boot.lean ====
section
/-! SUPPORT. What the load of the initial image does, said once (70_reset_and_hazards.md R202, R203). -/

namespace Sys2Proof.Machine

/-- A load changes nothing but the words of the store. -/
theorem loadPairs_frame : ∀ {image : List (Int × Int)} {s t : State}, loadPairs image s = .ok () t →
    t = s.withMem t.mem ∧ t.mem.capacity = s.mem.capacity ∧ t.mem.snap = s.mem.snap
  | [], s, t, h => by cases h; exact ⟨rfl, rfl, rfl⟩
  | (a, v) :: rest, s, t, h => by
    unfold loadPairs at h
    rcases memoryWrite_cases a v s with ⟨-, -, e⟩ | ⟨-, -, e⟩ | ⟨-, e⟩ <;> rw [e] at h
    · rw [Res.bind_ok] at h
      have ih := loadPairs_frame (image := rest) h
      exact ⟨ih.1, ih.2.1, ih.2.2⟩
    · cases h
    · cases h

/-- A load keeps the canonical form of the store. -/
theorem loadPairs_wf : ∀ (image : List (Int × Int)) {s : State}, s.mem.wf → (loadPairs image s).state.mem.wf
  | [], _, h => h
  | (a, v) :: rest, s, h => by
    unfold loadPairs
    rcases memoryWrite_cases a v s with ⟨hb, -, e⟩ | ⟨-, -, e⟩ | ⟨-, e⟩ <;> rw [e]
    · exact loadPairs_wf rest (wf_setWord h _ hb)
    · exact h
    · exact h

/-- Pairs that are in bounds and in range are loaded, and the load goes on with the rest. -/
theorem loadPairs_append (rest : List (Int × Int)) : ∀ (good : List (Int × Int)) (s : State),
    (∀ q ∈ good, s.mem.InBounds q.1 ∧ fitsWord q.2) →
      ∃ t, loadPairs (good ++ rest) s = loadPairs rest t ∧ t.mem.capacity = s.mem.capacity
  | [], s, _ => ⟨s, rfl, rfl⟩
  | (a, v) :: good, s, h => by
    have ⟨hb, hv⟩ := h (a, v) (List.mem_cons_self ..)
    rw [List.cons_append]
    unfold loadPairs
    rcases memoryWrite_cases a v s with ⟨-, -, e⟩ | ⟨-, hn, -⟩ | ⟨hn, -⟩
    · rw [e, Res.bind_ok]
      obtain ⟨u, hu, hc⟩ := loadPairs_append rest good (s.withMem (s.mem.setWord a (BitVec.ofInt 32 v)))
        (fun q hq => h q (List.mem_cons_of_mem _ hq))
      refine ⟨u, ?_, hc⟩
      rw [hu]
      cases rest <;> rfl
    · exact absurd hv hn
    · exact absurd hb hn

/-- The store of a machine just built is empty and canonical. -/
theorem blank_mem_wf (p : Params) (m c : Nat) (prog : List Line) : (State.blank p m c prog).mem.wf :=
  ⟨⟨List.Pairwise.nil, by simp [State.blank]⟩, ⟨List.Pairwise.nil, by simp [State.blank]⟩⟩

end Sys2Proof.Machine
end

