-- ==== Sys2Proof/Laws/Cache.lean ====
section
/-! SUPPORT. The entry array, the dirty set and the cache's operations: what each can do, said once. -/

namespace Sys2Proof.Machine

/-! ## The dirty set -/

/-- `dirty ∪ {a}` has `a` and the members of `dirty`. -/
theorem mem_addrInsert {a b : Int} : ∀ {l : List Int}, b ∈ addrInsert a l ↔ b = a ∨ b ∈ l
  | [] => by simp [addrInsert]
  | c :: t => by
    unfold addrInsert
    split_ifs with h1 h2
    · subst h1; simp
    · simp
    · simp [mem_addrInsert (l := t), or_left_comm]

/-- The set stays a strictly rising list. -/
theorem pairwise_addrInsert {a : Int} :
    ∀ {l : List Int}, l.Pairwise (fun x y => x < y) → (addrInsert a l).Pairwise (fun x y => x < y)
  | [], _ => by simp [addrInsert]
  | c :: t, h => by
    have hc := (List.pairwise_cons.mp h).1
    have ht := (List.pairwise_cons.mp h).2
    unfold addrInsert
    split_ifs with h1 h2
    · exact h
    · refine List.pairwise_cons.mpr ⟨fun x hx => ?_, h⟩
      rcases List.mem_cons.mp hx with hx | hx
      · omega
      · have := hc x hx; omega
    · refine List.pairwise_cons.mpr ⟨fun x hx => ?_, pairwise_addrInsert ht⟩
      rcases mem_addrInsert.mp hx with hx | hx
      · omega
      · exact hc x hx

/-! ## Lookup and insertion -/

/-- R100: nothing is found exactly where no entry has the tag. -/
theorem lookup_eq_none {a : Int} : ∀ {l : List Entry}, lookup a l = none ↔ a ∉ l.map Entry.tag
  | [] => by simp [lookup]
  | e :: t => by
    have ih := lookup_eq_none (a := a) (l := t)
    unfold lookup
    by_cases h : e.tag = a
    · simp [h]
    · rw [if_neg h]
      cases hl : lookup a t with
      | none => have := ih.mp hl; simpa [Ne.symm h] using this
      | some p => have : a ∈ t.map Entry.tag := by by_contra hn; simp [ih.mpr hn] at hl
                  simpa [Ne.symm h] using this

/-- R100: what is found stands in the array at its position. -/
theorem getElem?_of_lookup {a : Int} {n : Nat} {v : Word} :
    ∀ {l : List Entry}, lookup a l = some (n, v) → l[n]? = some ⟨a, v⟩
  | [], h => by simp [lookup] at h
  | e :: t, h => by
    unfold lookup at h
    by_cases he : e.tag = a
    · rw [if_pos he] at h
      obtain ⟨rfl, rfl⟩ := Prod.mk.inj (Option.some.inj h)
      subst he; rfl
    · rw [if_neg he] at h
      cases hl : lookup a t with
      | none => rw [hl] at h; simp at h
      | some p =>
        obtain ⟨m, d⟩ := p
        rw [hl] at h
        obtain ⟨rfl, rfl⟩ := Prod.mk.inj (Option.some.inj h)
        simpa using getElem?_of_lookup hl

/-- R103: `ent \ a` has the entries whose tag is not `a`. -/
theorem mem_removeTag {a : Int} {e : Entry} {l : List Entry} : e ∈ removeTag a l ↔ e ∈ l ∧ e.tag ≠ a := by
  simp [removeTag]

theorem tag_not_mem_removeTag (a : Int) (l : List Entry) : a ∉ (removeTag a l).map Entry.tag := by
  simp [removeTag]

/-- `ent \ a` is `ent` itself when no entry has tag `a` (R6). -/
theorem removeTag_of_not_mem {a : Int} {l : List Entry} (h : a ∉ l.map Entry.tag) : removeTag a l = l := by
  refine List.filter_eq_self.mpr fun e he => ?_
  have : e.tag ≠ a := fun hea => h (List.mem_map.mpr ⟨e, he, hea⟩)
  simpa using this

theorem length_removeTag_le (a : Int) (l : List Entry) : (removeTag a l).length ≤ l.length :=
  List.length_filter_le ..

/-- R103 as it is written out in statements. -/
theorem insert_ent (c : Cache) (a : Int) (v : Word) : (c.insert a v).ent = installed c.capacity c.ent a v := rfl

@[simp] theorem insert_capacity (c : Cache) (a : Int) (v : Word) : (c.insert a v).capacity = c.capacity := rfl
@[simp] theorem insert_dirty (c : Cache) (a : Int) (v : Word) : (c.insert a v).dirty = c.dirty := rfl
@[simp] theorem insert_en (c : Cache) (a : Int) (v : Word) : (c.insert a v).en = c.en := rfl
@[simp] theorem insert_hits (c : Cache) (a : Int) (v : Word) : (c.insert a v).hits = c.hits := rfl
@[simp] theorem insert_misses (c : Cache) (a : Int) (v : Word) : (c.insert a v).misses = c.misses := rfl
@[simp] theorem insert_total (c : Cache) (a : Int) (v : Word) : (c.insert a v).total = c.total := rfl
@[simp] theorem insert_lat (c : Cache) (a : Int) (v : Word) : (c.insert a v).lat = c.lat := rfl

theorem appended_unique {c : Cache} (h : c.unique) (a : Int) (v : Word) :
    ((c.appended a v).map Entry.tag).Nodup := by
  have h1 : ((removeTag a c.ent).map Entry.tag).Nodup :=
    List.Nodup.sublist ((List.filter_sublist).map _) h
  rw [Cache.appended, List.map_append]
  refine List.Nodup.append h1 (by simp) ?_
  intro x hx hx'
  have : x = a := by simpa using hx'
  exact tag_not_mem_removeTag a c.ent (this ▸ hx)

/-- R18 (i) is kept by an insertion. -/
theorem insert_unique {c : Cache} (h : c.unique) (a : Int) (v : Word) : (c.insert a v).unique := by
  have h1 := appended_unique h a v
  unfold Cache.unique Cache.insert
  dsimp only
  split
  · rw [← List.drop_one, List.map_drop]; exact h1.sublist (List.drop_sublist ..)
  · exact h1

/-- R18 (ii) is kept by an insertion: one eviction restores the bound (R103). -/
theorem insert_bounded {c : Cache} (h : c.bounded) (a : Int) (v : Word) : (c.insert a v).bounded := by
  have hl := length_removeTag_le a c.ent
  have hc : c.ent.length ≤ c.capacity := h
  unfold Cache.bounded Cache.insert
  dsimp only
  split
  · simp [Cache.appended]; omega
  · omega

/-! ## Commands -/

/-- What `cache_read` can do (R101): a bypass, a hit, a miss that installs, a miss whose read fails. -/
theorem cacheRead_cases (a : Int) (s : State) :
    (s.cache.en = false ∧ cacheRead a s = portRead a s) ∨
    (∃ n v, s.cache.en = true ∧ lookup a s.cache.ent = some (n, v) ∧ cacheRead a s = .ok v (countHit a s)) ∨
    (s.cache.en = true ∧ lookup a s.cache.ent = none ∧ s.mem.InBounds a ∧
      cacheRead a s = .ok (s.mem.word a)
        (insertPair a (s.mem.word a) (logTxn (.read a (some (s.mem.word a))) (countMiss a s)))) ∨
    (s.cache.en = true ∧ lookup a s.cache.ent = none ∧ ¬ s.mem.InBounds a ∧
      cacheRead a s = .raise (.outOfBounds a) (logTxn (.read a none) (countMiss a s))) := by
  unfold cacheRead
  cases hen : s.cache.en with
  | false => exact .inl ⟨rfl, if_neg (by simp)⟩
  | true =>
    rw [if_pos rfl]
    cases hl : lookup a s.cache.ent with
    | some p => exact .inr (.inl ⟨p.1, p.2, rfl, rfl, rfl⟩)
    | none =>
      rcases portRead_cases a (countMiss a s) with ⟨hb, e⟩ | ⟨hb, e⟩
      · exact .inr (.inr (.inl ⟨rfl, rfl, hb, by rw [e]; rfl⟩))
      · exact .inr (.inr (.inr ⟨rfl, rfl, hb, by rw [e]; rfl⟩))

/-- What `cache_write` can do (R102): a bypass, or an install that marks the address dirty. -/
theorem cacheWrite_cases (a : Int) (w : Word) (s : State) :
    (s.cache.en = false ∧ cacheWrite a w s = portWrite a w s) ∨
    (s.cache.en = true ∧ cacheWrite a w s = .ok () (markDirty a (insertPair a w s))) := by
  unfold cacheWrite
  cases hen : s.cache.en with
  | false => exact .inl ⟨rfl, if_neg (by simp)⟩
  | true => exact .inr ⟨rfl, if_pos rfl⟩

/-- The store and the log after one write-back that succeeds. -/
abbrev afterWrite (e : Entry) (s : State) : State :=
  logTxn (.write e.tag e.data true) (s.withMem (s.mem.setWord e.tag e.data))

theorem writeBack_clean {dirty : List Int} {e : Entry} (h : e.tag ∉ dirty) (es : List Entry) (s : State) :
    writeBack dirty (e :: es) s = writeBack dirty es s := if_neg h

theorem writeBack_dirty {dirty : List Int} {e : Entry} {s : State} (h : e.tag ∈ dirty) (hb : s.mem.InBounds e.tag)
    (es : List Entry) : writeBack dirty (e :: es) s = writeBack dirty es (afterWrite e s) := by
  have : writeBack dirty (e :: es) s = (portWrite e.tag e.data s).bind (fun _ s' => writeBack dirty es s') := if_pos h
  rcases portWrite_cases e.tag e.data s with ⟨-, hw⟩ | ⟨hn, -⟩
  · rw [this, hw, Res.bind_ok]
  · exact absurd hb hn

theorem writeBack_fails {dirty : List Int} {e : Entry} {s : State} (h : e.tag ∈ dirty) (hb : ¬ s.mem.InBounds e.tag)
    (es : List Entry) :
    writeBack dirty (e :: es) s = .raise (.outOfBounds e.tag) (logTxn (.write e.tag e.data false) s) := by
  have : writeBack dirty (e :: es) s = (portWrite e.tag e.data s).bind (fun _ s' => writeBack dirty es s') := if_pos h
  rcases portWrite_cases e.tag e.data s with ⟨hn, -⟩ | ⟨-, hw⟩
  · exact absurd hn hb
  · rw [this, hw, Res.bind_raise]

/-- What the write-back loop leaves alone (R125, R126): everything but the words of the store and the port's log. -/
theorem writeBack_frame (dirty : List Int) :
    ∀ (l : List Entry) (s : State), (writeBack dirty l s).state.cache = s.cache ∧
      (writeBack dirty l s).state.client = s.client ∧ sameMachine s (writeBack dirty l s).state ∧
      (writeBack dirty l s).state.out.events = s.out.events
  | [], s => ⟨rfl, rfl, ⟨rfl, rfl, rfl, rfl, rfl, rfl⟩, rfl⟩
  | e :: es, s => by
    by_cases h : e.tag ∈ dirty
    · by_cases hb : s.mem.InBounds e.tag
      · rw [writeBack_dirty h hb]
        exact writeBack_frame dirty es (afterWrite e s)
      · rw [writeBack_fails h hb]
        exact ⟨rfl, rfl, ⟨rfl, rfl, rfl, rfl, rfl, rfl⟩, rfl⟩
    · rw [writeBack_clean h]
      exact writeBack_frame dirty es s

/-- The loop keeps the canonical form of the store. -/
theorem writeBack_wf (dirty : List Int) :
    ∀ (l : List Entry) (s : State), s.mem.wf → (writeBack dirty l s).state.mem.wf
  | [], _, h => h
  | e :: es, s, h => by
    by_cases hd : e.tag ∈ dirty
    · by_cases hb : s.mem.InBounds e.tag
      · rw [writeBack_dirty hd hb]
        exact writeBack_wf dirty es (afterWrite e s) (wf_setWord h _ hb)
      · rw [writeBack_fails hd hb]; exact h
    · rw [writeBack_clean hd]; exact writeBack_wf dirty es s h

/-- The loop over two parts, one after the other. -/
theorem writeBack_append (dirty : List Int) (l₂ : List Entry) :
    ∀ (l₁ : List Entry) (s : State),
      writeBack dirty (l₁ ++ l₂) s = (writeBack dirty l₁ s).bind (fun _ s' => writeBack dirty l₂ s')
  | [], _ => rfl
  | e :: es, s => by
    rw [List.cons_append]
    by_cases hd : e.tag ∈ dirty
    · by_cases hb : s.mem.InBounds e.tag
      · rw [writeBack_dirty hd hb, writeBack_dirty hd hb, writeBack_append dirty l₂ es]
      · rw [writeBack_fails hd hb, writeBack_fails hd hb, Res.bind_raise]
    · rw [writeBack_clean hd, writeBack_clean hd, writeBack_append dirty l₂ es]

/-- R125: the loop succeeds where each address to write is in bounds, with one write transaction for each, in order. -/
theorem writeBack_ok (dirty : List Int) :
    ∀ (l : List Entry) (s : State), (∀ e ∈ l, e.tag ∈ dirty → s.mem.InBounds e.tag) →
      ∃ t, writeBack dirty l s = .ok () t ∧
        t.out.txns = s.out.txns ++
          (l.filter (fun e => decide (e.tag ∈ dirty))).map (fun e => .write e.tag e.data true)
  | [], s, _ => ⟨s, rfl, by simp⟩
  | e :: es, s, h => by
    have h' : ∀ x ∈ es, x.tag ∈ dirty → s.mem.InBounds x.tag := fun x hx => h x (List.mem_cons_of_mem _ hx)
    by_cases hd : e.tag ∈ dirty
    · obtain ⟨t, ht, hx⟩ := writeBack_ok dirty es (afterWrite e s) h'
      refine ⟨t, by rw [writeBack_dirty hd (h e (List.mem_cons_self ..) hd), ht], ?_⟩
      rw [hx]; simp [hd]
    · obtain ⟨t, ht, hx⟩ := writeBack_ok dirty es s h'
      exact ⟨t, by rw [writeBack_clean hd, ht], by rw [hx]; simp [hd]⟩

/-- What the loop leaves in the words of the store: an address of no entry that it writes keeps its word. -/
theorem writeBack_word_other (dirty : List Int) (a : Int) :
    ∀ (l : List Entry) (s : State), s.mem.wf → s.mem.InBounds a →
      (∀ e ∈ l, e.tag ∈ dirty → e.tag ≠ a) → (writeBack dirty l s).state.mem.word a = s.mem.word a
  | [], _, _, _, _ => rfl
  | e :: es, s, hm, ha, h => by
    have h' : ∀ x ∈ es, x.tag ∈ dirty → x.tag ≠ a := fun x hx => h x (List.mem_cons_of_mem _ hx)
    by_cases hd : e.tag ∈ dirty
    · by_cases hb : s.mem.InBounds e.tag
      · rw [writeBack_dirty hd hb, writeBack_word_other dirty a es (afterWrite e s) (wf_setWord hm _ hb) ha h']
        have hne := h e (List.mem_cons_self ..) hd
        rw [logTxn_mem, withMem_mem, word_setWord hm _ hb ha, if_neg (Ne.symm hne)]
      · rw [writeBack_fails hd hb]; rfl
    · rw [writeBack_clean hd]
      exact writeBack_word_other dirty a es s hm ha h'

/-- R125: each entry that the loop writes back has its data in the store afterwards. -/
theorem writeBack_word_written (dirty : List Int) :
    ∀ (l : List Entry) (s : State), s.mem.wf → (l.map Entry.tag).Nodup →
      (∀ e ∈ l, e.tag ∈ dirty → s.mem.InBounds e.tag) →
      ∀ e ∈ l, e.tag ∈ dirty → (writeBack dirty l s).state.mem.word e.tag = e.data
  | [], _, _, _, _, e, he, _ => by simp at he
  | x :: xs, s, hm, hn, hb, e, he, hd => by
    have hxs : x.tag ∉ xs.map Entry.tag := (List.nodup_cons.mp hn).1
    have hn' : (xs.map Entry.tag).Nodup := (List.nodup_cons.mp hn).2
    have hb' : ∀ y ∈ xs, y.tag ∈ dirty → s.mem.InBounds y.tag := fun y hy => hb y (List.mem_cons_of_mem _ hy)
    by_cases hxd : x.tag ∈ dirty
    · have hxb := hb x (List.mem_cons_self ..) hxd
      rw [writeBack_dirty hxd hxb]
      rcases List.mem_cons.mp he with he | he
      · subst he
        rw [writeBack_word_other dirty e.tag xs (afterWrite e s) (wf_setWord hm _ hxb) hxb
          (fun y hy _ hya => hxs (List.mem_map.mpr ⟨y, hy, hya⟩))]
        rw [logTxn_mem, withMem_mem, word_setWord hm _ hxb hxb, if_pos rfl]
      · exact writeBack_word_written dirty xs (afterWrite x s) (wf_setWord hm _ hxb) hn' hb' e he hd
    · rw [writeBack_clean hxd]
      rcases List.mem_cons.mp he with he | he
      · subst he; exact absurd hd hxd
      · exact writeBack_word_written dirty xs s hm hn' hb' e he hd

/-- What `sync_with_memory` does (R125, R126): the loop, then `dirty` cleared where the loop succeeded. -/
theorem syncWithMemory_cases (s : State) :
    (∃ t, writeBack s.cache.dirty s.cache.ent s = .ok () t ∧
      syncWithMemory s = .ok () (t.withCache { t.cache with dirty := [] })) ∨
    (∃ e t, writeBack s.cache.dirty s.cache.ent s = .raise e t ∧ syncWithMemory s = .raise e t) := by
  unfold syncWithMemory
  cases h : writeBack s.cache.dirty s.cache.ent s with
  | ok u t => exact .inl ⟨t, rfl, rfl⟩
  | raise e t => exact .inr ⟨e, t, rfl, rfl⟩

/-- What the cache's `flush` does (R127, R128). -/
theorem flushCache_cases (s : State) :
    (∃ t, writeBack s.cache.dirty s.cache.ent s = .ok () t ∧
      flushCache s = .ok () (t.withCache { t.cache with dirty := [], ent := [] })) ∨
    (∃ e t, writeBack s.cache.dirty s.cache.ent s = .raise e t ∧ flushCache s = .raise e t) := by
  unfold flushCache
  rcases syncWithMemory_cases s with ⟨t, h, e⟩ | ⟨x, t, h, e⟩
  · exact .inl ⟨t, h, by rw [e]; rfl⟩
  · exact .inr ⟨x, t, h, by rw [e]; rfl⟩

/-- What one command on the command port does (R71): the operation's result, with the response and the request
recorded. -/
theorem issue_cases {α : Type} (q : Request) (resp : α → Response) (op : State → Res α) (s : State) :
    (∃ a t, op (s.withOut {}) = .ok a t ∧
      issue q resp op s = .ok a (t.withOut { t.out with issued := some q, resp := some (resp a) })) ∨
    (∃ e t, op (s.withOut {}) = .raise e t ∧
      issue q resp op s = .raise e (t.withOut
        { t.out with issued := some q, resp := some (respError e), events := t.out.events ++ [.error e] })) := by
  unfold issue
  cases h : op (s.withOut {}) with
  | ok a t => exact .inl ⟨a, t, rfl, rfl⟩
  | raise e t => exact .inr ⟨e, t, rfl, rfl⟩

/-- What an ALU result does (R162). -/
theorem writeResult_cases (rd : Reg) (v : Int) (s : State) :
    (fitsWord v ∧ writeResult rd v s = .next (advance (writeReg rd (BitVec.ofInt 32 v) (idlePorts s)))) ∨
    (¬ fitsWord v ∧ writeResult rd v s = .refused (.resultNotWord v)) := by
  unfold writeResult
  by_cases h : fitsWord v
  · exact .inl ⟨h, by rw [wordOfInt?_eq_some.mpr ⟨h, rfl⟩]⟩
  · exact .inr ⟨h, by rw [wordOfInt?_eq_none.mpr h]⟩

/-- What a command of the client does (R142, R143, R145). -/
theorem clientCommand_cases (q : Request) (op : State → Res Unit) (s : State) :
    (∃ t, issue q respNone op s = .ok () t ∧ clientCommand q op s = .next (advance t)) ∨
    (∃ e t, issue q respNone op s = .raise e t ∧ clientCommand q op s = .next (takeError e t)) := by
  unfold clientCommand
  cases issue q respNone op s with
  | ok a t => exact .inl ⟨t, rfl, rfl⟩
  | raise e t => exact .inr ⟨e, t, rfl, rfl⟩

/-- R129: the percentages and the average are the quotients of the formulas. -/
theorem percent_eq (part whole : Nat) : percent part whole = if whole = 0 then 0 else (part : ℚ) / whole * 100 := by
  unfold percent
  split
  · rfl
  · rw [Rat.mkRat_eq_div]; push_cast; ring

theorem ratio_eq (part whole : Nat) : ratio part whole = if whole = 0 then 0 else (part : ℚ) / whole := by
  unfold ratio
  split
  · rfl
  · rw [Rat.mkRat_eq_div]; push_cast; ring

end Sys2Proof.Machine
end

