-- ==== Sys2Proof/Laws/Exec.lean ====
section
/-! SUPPORT. What a next state of `exec` holds, said once for all instructions: the store and the cache as the operation
of the instruction leaves them, and the parts that no instruction writes. -/

namespace Sys2Proof.Machine

/-- The state that the operation of `i` on the hierarchy leaves; `s` where `i` has none. -/
def hierarchyAfter (i : Instr) (s : State) : State :=
  match i with
  | .cacheRead a => (cacheRead a s).state
  | .cacheWrite a w => (cacheWrite a w s).state
  | .cacheControl c => (cacheControl c s).state
  | .cacheControlDisable => (setEnabled false s).state
  | .cacheControlEnable => (setEnabled true s).state
  | .cacheControlFlush => (flushCache s).state
  | .cacheControlInvalid _ => s
  | .syncWithMemory => (syncWithMemory s).state
  | .cacheFlush => (flushCache s).state
  | .status => s
  | .memRead _ => s
  | .memWrite a v => (memoryWrite a v s).state
  | .memFlush => (memoryFlush s).state
  | .memResetToInitial => (memoryResetToInitial s).state
  | .reserved0 => s
  | .reserved7 => s
  | .reserved12 => s
  | .reserved13 => s
  | .reserved14 => s
  | .reserved15 => s
  | .add _ _ _ => s
  | .addi _ _ _ => s
  | .sub _ _ _ => s
  | .slt _ _ _ => s
  | .bne _ _ _ => s
  | .j _ => s
  | .jal _ => s
  | .lw _ offset rs => (cacheRead (effectiveAddress offset rs s) s).state
  | .sw rt offset rs => (cacheWrite (effectiveAddress offset rs s) (readReg rt s) s).state
  | .cache c => (cacheControl c s).state
  | .halt => s

/-- What a command of the host leaves (R187): the state its operation leaves, but for the recorded outputs. -/
theorem hostCommand_next {α : Type} (q : Request) (resp : α → Response) (op : State → Res α) (s : State) :
    ∃ t, hostCommand q resp op s = .next t ∧ ∃ o, t = (op (s.withOut {})).state.withOut o := by
  rcases issue_cases q resp op s with ⟨a, t, h, e⟩ | ⟨x, t, h, e⟩
  · exact ⟨_, rfl, _, by rw [e, h]; rfl⟩
  · exact ⟨_, rfl, _, by rw [e, h]; rfl⟩

/-- What a command of the client leaves: the state its operation leaves, but for the outputs and the client. -/
theorem clientCommand_next (q : Request) (op : State → Res Unit) (s : State) :
    ∃ t, clientCommand q op s = .next t ∧ ∃ o c, t = ((op (s.withOut {})).state.withOut o).withClient c := by
  rcases clientCommand_cases q op s with ⟨u, hi, he⟩ | ⟨x, u, hi, he⟩
  · rcases issue_cases q respNone op s with ⟨a, t, h, e⟩ | ⟨y, t, h, e⟩
    · rw [hi] at e
      obtain ⟨-, rfl⟩ := Res.ok.inj e
      exact ⟨_, he, _, _, by rw [h]; rfl⟩
    · rw [hi] at e; cases e
  · rcases issue_cases q respNone op s with ⟨a, t, h, e⟩ | ⟨y, t, h, e⟩
    · rw [hi] at e; cases e
    · rw [hi] at e
      obtain ⟨-, rfl⟩ := Res.raise.inj e
      exact ⟨_, he, _, _, by rw [h]; rfl⟩

/-- R42: a read has no side effect. -/
@[simp] theorem memoryRead_state (a : Int) (s : State) : (memoryRead a s).state = s := by
  rcases memoryRead_cases a s with ⟨-, e⟩ | ⟨-, e⟩ <;> rw [e] <;> rfl

/-- A register write is a change of the client. -/
theorem writeReg_eq_withClient (i : Reg) (v : Word) (s : State) : ∃ c, writeReg i v s = s.withClient c := by
  unfold writeReg
  split
  · exact ⟨s.client, rfl⟩
  · exact ⟨_, rfl⟩

/-- What LW leaves: the state that `cache_read` leaves, but for the outputs and the client. -/
theorem execLw_next (rt : Reg) (offset : Int) (rs : Reg) (s : State) :
    ∃ t, execLw rt offset rs s = .next t ∧
      ∃ o c, t = ((cacheRead (effectiveAddress offset rs s) (s.withOut {})).state.withOut o).withClient c := by
  unfold execLw
  rcases issue_cases (reqCacheRead (effectiveAddress offset rs s)) respData
    (cacheRead (effectiveAddress offset rs s)) s with ⟨a, t, h, e⟩ | ⟨x, t, h, e⟩
  · rw [e, h]
    obtain ⟨c, hc⟩ := writeReg_eq_withClient rt a
      (t.withOut { t.out with issued := some (reqCacheRead (effectiveAddress offset rs s)), resp := some (respData a) })
    exact ⟨_, rfl, { t.out with issued := some (reqCacheRead (effectiveAddress offset rs s)), resp := some (respData a) },
      { c with pc := c.pc + t.params.instrSize }, by rw [hc]; rfl⟩
  · rw [e, h]
    exact ⟨_, rfl, _, _, rfl⟩

/-- What an ALU result leaves, where it leaves a next state. -/
theorem writeResult_next {rd : Reg} {v : Int} {s t : State} (h : writeResult rd v s = .next t) :
    ∃ o c, t = (s.withOut o).withClient c := by
  rcases writeResult_cases rd v s with ⟨-, e⟩ | ⟨-, e⟩
  · rw [e] at h
    obtain ⟨c, hc⟩ := writeReg_eq_withClient rd (BitVec.ofInt 32 v) (idlePorts s)
    rw [hc] at h
    exact ⟨_, _, (Host.Outcome.next.inj h).symm⟩
  · rw [e] at h; cases h

/-- Every next state of `exec`: the store and the cache are as the instruction's operation leaves them (R144), and only
the outputs and the client can differ from that state. -/
theorem exec_next {i : Instr} {s t : State} (h : exec i s = .next t) :
    ∃ o c, t = ((hierarchyAfter i (s.withOut {})).withOut o).withClient c := by
  have host : ∀ {α : Type} {q : Request} {resp : α → Response} {op : State → Res α},
      hostCommand q resp op s = .next t → ∃ o c, t = ((op (s.withOut {})).state.withOut o).withClient c := by
    intro α q resp op h
    obtain ⟨u, hu, o, rfl⟩ := hostCommand_next q resp op s
    rw [hu] at h
    exact ⟨o, _, (Host.Outcome.next.inj h).symm⟩
  have client : ∀ {q : Request} {op : State → Res Unit},
      clientCommand q op s = .next t → ∃ o c, t = ((op (s.withOut {})).state.withOut o).withClient c := by
    intro q op h
    obtain ⟨u, hu, o, c, rfl⟩ := clientCommand_next q op s
    rw [hu] at h
    exact ⟨o, c, (Host.Outcome.next.inj h).symm⟩
  have alu : (∃ o c, t = (s.withOut o).withClient c) → ∃ o c, t = (((s.withOut {}).withOut o).withClient c) :=
    fun ⟨o, c, h⟩ => ⟨o, c, h⟩
  cases i with
  | add | addi | sub => exact alu (writeResult_next h)
  | slt rd rs rt =>
    obtain ⟨c, hc⟩ := writeReg_eq_withClient rd (if regValue rs s < regValue rt s then 1#32 else 0#32) (idlePorts s)
    have h' := (Host.Outcome.next.inj h).symm
    rw [hc] at h'
    exact alu ⟨_, _, h'⟩
  | bne rs rt offset =>
    have h' := (Host.Outcome.next.inj h).symm
    split at h'
    · exact alu ⟨_, _, h'⟩
    · exact alu ⟨_, _, h'⟩
  | j | halt => exact alu ⟨_, _, (Host.Outcome.next.inj h).symm⟩
  | jal target =>
    have h : execJal target s = .next t := h
    unfold execJal at h
    split at h
    · rename_i w _
      obtain ⟨c, hc⟩ := writeReg_eq_withClient s.params.raIndex w (idlePorts s)
      rw [hc] at h
      exact alu ⟨_, _, (Host.Outcome.next.inj h).symm⟩
    · cases h
  | lw rt offset rs =>
    obtain ⟨u, hu, o, c, rfl⟩ := execLw_next rt offset rs s
    have h : execLw rt offset rs s = .next t := h
    rw [hu] at h
    exact ⟨o, c, (Host.Outcome.next.inj h).symm⟩
  | sw | cache => exact client h
  | memRead a =>
    obtain ⟨o, c, e⟩ := host h
    exact ⟨o, c, by rw [e, memoryRead_state]; rfl⟩
  | _ => exact host h

end Sys2Proof.Machine
end

