-- ==== Sys2Proof/Laws/PerInstr.lean ====
section
/-! SUPPORT. Statements made for every instruction, as syntax, one lemma for each constructor. -/

namespace Sys2Proof.Laws.EncodeForm

/-- A text instruction is encoded as a line and a command as a request (R70, R80), and the row that a CACHE_CONTROL
code selects (R74) is a well-formed instruction of the same kind with the same encoding. -/
def Statement (i : Instr) : Prop :=
  (match encode i with
    | .line _ => i.isClient = true
    | .request _ => i.isClient = false) ∧
    (i.wellFormed = true → i.canonical.wellFormed = true ∧ i.canonical.isClient = i.isClient ∧
      encode i.canonical = encode i)

theorem cacheRead (a) : Statement (.cacheRead a) := ⟨rfl, fun h => ⟨h, rfl, rfl⟩⟩

theorem cacheWrite (a b) : Statement (.cacheWrite a b) := ⟨rfl, fun h => ⟨h, rfl, rfl⟩⟩

theorem cacheControl (a) : Statement (.cacheControl a) := by
  refine ⟨rfl, fun _ => ?_⟩
  show (decodeControl a).wellFormed = true ∧ (decodeControl a).isClient = false ∧ encode (decodeControl a) = _
  unfold decodeControl
  split_ifs with h0 h1 h2
  · subst h0; exact ⟨rfl, rfl, rfl⟩
  · subst h1; exact ⟨rfl, rfl, rfl⟩
  · subst h2; exact ⟨rfl, rfl, rfl⟩
  · exact ⟨by simp [Instr.wellFormed, h0, h1, h2], rfl, rfl⟩

theorem cacheControlDisable : Statement (.cacheControlDisable) := ⟨rfl, fun h => ⟨h, rfl, rfl⟩⟩

theorem cacheControlEnable : Statement (.cacheControlEnable) := ⟨rfl, fun h => ⟨h, rfl, rfl⟩⟩

theorem cacheControlFlush : Statement (.cacheControlFlush) := ⟨rfl, fun h => ⟨h, rfl, rfl⟩⟩

theorem cacheControlInvalid (a) : Statement (.cacheControlInvalid a) := ⟨rfl, fun h => ⟨h, rfl, rfl⟩⟩

theorem syncWithMemory : Statement (.syncWithMemory) := ⟨rfl, fun h => ⟨h, rfl, rfl⟩⟩

theorem cacheFlush : Statement (.cacheFlush) := ⟨rfl, fun h => ⟨h, rfl, rfl⟩⟩

theorem status : Statement (.status) := ⟨rfl, fun h => ⟨h, rfl, rfl⟩⟩

theorem memRead (a) : Statement (.memRead a) := ⟨rfl, fun h => ⟨h, rfl, rfl⟩⟩

theorem memWrite (a b) : Statement (.memWrite a b) := ⟨rfl, fun h => ⟨h, rfl, rfl⟩⟩

theorem memFlush : Statement (.memFlush) := ⟨rfl, fun h => ⟨h, rfl, rfl⟩⟩

theorem memResetToInitial : Statement (.memResetToInitial) := ⟨rfl, fun h => ⟨h, rfl, rfl⟩⟩

theorem reserved0 : Statement (.reserved0) := ⟨rfl, fun h => ⟨h, rfl, rfl⟩⟩

theorem reserved7 : Statement (.reserved7) := ⟨rfl, fun h => ⟨h, rfl, rfl⟩⟩

theorem reserved12 : Statement (.reserved12) := ⟨rfl, fun h => ⟨h, rfl, rfl⟩⟩

theorem reserved13 : Statement (.reserved13) := ⟨rfl, fun h => ⟨h, rfl, rfl⟩⟩

theorem reserved14 : Statement (.reserved14) := ⟨rfl, fun h => ⟨h, rfl, rfl⟩⟩

theorem reserved15 : Statement (.reserved15) := ⟨rfl, fun h => ⟨h, rfl, rfl⟩⟩

theorem add (a b c) : Statement (.add a b c) := ⟨rfl, fun h => ⟨h, rfl, rfl⟩⟩

theorem addi (a b c) : Statement (.addi a b c) := ⟨rfl, fun h => ⟨h, rfl, rfl⟩⟩

theorem sub (a b c) : Statement (.sub a b c) := ⟨rfl, fun h => ⟨h, rfl, rfl⟩⟩

theorem slt (a b c) : Statement (.slt a b c) := ⟨rfl, fun h => ⟨h, rfl, rfl⟩⟩

theorem bne (a b c) : Statement (.bne a b c) := ⟨rfl, fun h => ⟨h, rfl, rfl⟩⟩

theorem j (a) : Statement (.j a) := ⟨rfl, fun h => ⟨h, rfl, rfl⟩⟩

theorem jal (a) : Statement (.jal a) := ⟨rfl, fun h => ⟨h, rfl, rfl⟩⟩

theorem lw (a b c) : Statement (.lw a b c) := ⟨rfl, fun h => ⟨h, rfl, rfl⟩⟩

theorem sw (a b c) : Statement (.sw a b c) := ⟨rfl, fun h => ⟨h, rfl, rfl⟩⟩

theorem cache (a) : Statement (.cache a) := ⟨rfl, fun h => ⟨h, rfl, rfl⟩⟩

theorem halt : Statement (.halt) := ⟨rfl, fun h => ⟨h, rfl, rfl⟩⟩

end Sys2Proof.Laws.EncodeForm
end

