-- ==== Sys2Proof/Laws/Step.lean ====
section
/-! SUPPORT. What the cache's operations leave alone, what a next state of `exec` keeps, and what a step can do, each
said once. -/

namespace Sys2Proof.Machine

/-! ## Frames of the cache's operations -/

/-- R105, R214: a `cache_read` leaves the store, the dirty set, the enable bit and the client alone. -/
theorem cacheRead_frame (a : Int) (s : State) :
    (cacheRead a s).state.mem = s.mem ∧ sameMachine s (cacheRead a s).state ∧
      (cacheRead a s).state.cache.dirty = s.cache.dirty ∧ (cacheRead a s).state.cache.en = s.cache.en ∧
      (cacheRead a s).state.client = s.client := by
  rcases cacheRead_cases a s with ⟨-, e⟩ | ⟨n, v, -, -, e⟩ | ⟨-, -, -, e⟩ | ⟨-, -, -, e⟩
  · rw [e]; rcases portRead_cases a s with ⟨-, e⟩ | ⟨-, e⟩ <;> rw [e] <;> simp [sameMachine]
  all_goals rw [e]; simp [sameMachine]

/-- A `cache_write` leaves the enable bit, the statistics and the client alone (R102, D11). -/
theorem cacheWrite_frame (a : Int) (w : Word) (s : State) :
    sameMachine s (cacheWrite a w s).state ∧ (cacheWrite a w s).state.client = s.client ∧
      countersSame s.cache (cacheWrite a w s).state.cache ∧ (cacheWrite a w s).state.cache.en = s.cache.en := by
  rcases cacheWrite_cases a w s with ⟨-, e⟩ | ⟨-, e⟩ <;> rw [e]
  · rcases portWrite_cases a w s with ⟨-, e⟩ | ⟨-, e⟩ <;> rw [e] <;>
      simp [sameMachine, countersSame]
  · simp [sameMachine, countersSame]

/-- A sync leaves the entries, the enable bit, the statistics and the client alone (R125, R126). -/
theorem syncWithMemory_frame (s : State) :
    sameMachine s (syncWithMemory s).state ∧ (syncWithMemory s).state.client = s.client ∧
      ((syncWithMemory s).state.cache = s.cache ∨
        (syncWithMemory s).state.cache = { s.cache with dirty := [] }) := by
  have h := writeBack_frame s.cache.dirty s.cache.ent s
  rcases syncWithMemory_cases s with ⟨t, ht, e⟩ | ⟨x, t, ht, e⟩ <;> rw [e] <;> rw [ht] at h <;>
    simp_all [sameMachine]

/-- A flush leaves the enable bit, the statistics and the client alone (R127, R128). -/
theorem flushCache_frame (s : State) :
    sameMachine s (flushCache s).state ∧ (flushCache s).state.client = s.client ∧
      ((flushCache s).state.cache = s.cache ∨
        (flushCache s).state.cache = { s.cache with dirty := [], ent := [] }) := by
  have h := writeBack_frame s.cache.dirty s.cache.ent s
  rcases flushCache_cases s with ⟨t, ht, e⟩ | ⟨x, t, ht, e⟩ <;> rw [e] <;> rw [ht] at h <;>
    simp_all [sameMachine]

/-- What CACHE_CONTROL can do, by its code (R120). -/
theorem cacheControl_cases (c : Int) (s : State) :
    (c = 0 ∧ cacheControl c s = setEnabled false s) ∨ (c = 1 ∧ cacheControl c s = setEnabled true s) ∨
    (c = 2 ∧ cacheControl c s = flushCache s) ∨
    (c ≠ 0 ∧ c ≠ 1 ∧ c ≠ 2 ∧ cacheControl c s = invalidCode c s) := by
  unfold cacheControl
  split_ifs with h0 h1 h2 <;> simp_all

/-- What no control code touches (R120 to R124). -/
theorem cacheControl_frame (c : Int) (s : State) :
    sameMachine s (cacheControl c s).state ∧ (cacheControl c s).state.client = s.client := by
  rcases cacheControl_cases c s with ⟨-, e⟩ | ⟨-, e⟩ | ⟨-, e⟩ | ⟨-, -, -, e⟩ <;> rw [e]
  · simp [sameMachine, setEnabled]
  · simp [sameMachine, setEnabled]
  · exact ⟨(flushCache_frame s).1, (flushCache_frame s).2.1⟩
  · simp [sameMachine, invalidCode]

/-- What the operation of an instruction on the store and the cache never touches. -/
theorem hierarchyAfter_frame (i : Instr) (s : State) :
    sameMachine s (hierarchyAfter i s) ∧ (hierarchyAfter i s).client = s.client := by
  have write : ∀ a v, sameMachine s (memoryWrite a v s).state ∧ (memoryWrite a v s).state.client = s.client := by
    intro a v
    rcases memoryWrite_cases a v s with ⟨-, -, e⟩ | ⟨-, -, e⟩ | ⟨-, e⟩ <;> rw [e] <;> simp [sameMachine]
  cases i <;> simp only [hierarchyAfter] <;> first
    | exact ⟨(cacheRead_frame _ s).2.1, (cacheRead_frame _ s).2.2.2.2⟩
    | exact ⟨(cacheWrite_frame _ _ s).1, (cacheWrite_frame _ _ s).2.1⟩
    | exact ⟨(flushCache_frame s).1, (flushCache_frame s).2.1⟩
    | exact ⟨(syncWithMemory_frame s).1, (syncWithMemory_frame s).2.1⟩
    | exact cacheControl_frame _ s
    | exact write _ _
    | simp [sameMachine, setEnabled, memoryFlush, memoryResetToInitial]

/-- What no instruction writes. -/
theorem exec_sameMachine {i : Instr} {s t : State} (h : exec i s = .next t) : sameMachine s t := by
  obtain ⟨o, c, rfl⟩ := exec_next h
  have := (hierarchyAfter_frame i (s.withOut {})).1
  simpa [sameMachine] using this

/-- The store and the cache after an instruction: those its operation leaves. -/
theorem exec_hierarchy {i : Instr} {s t : State} (h : exec i s = .next t) :
    t.mem = (hierarchyAfter i (s.withOut {})).mem ∧ t.cache = (hierarchyAfter i (s.withOut {})).cache := by
  obtain ⟨o, c, rfl⟩ := exec_next h
  exact ⟨rfl, rfl⟩

/-! ## The step -/

/-- What the client's fetch can do (R150): run an instruction on the state as it is, or end the run. -/
theorem fetchClient_cases (s : State) :
    (∃ i, fetchClient s = .run i s) ∨ (∃ r, fetchClient s = .done (haltRun r (idlePorts s))) ∨
      fetchClient s = .refuse (.pcUndefined s.client.pc) := by
  unfold fetchClient
  split_ifs
  · cases s.prog[lineIndex s]? with
    | none => exact .inr (.inl ⟨_, rfl⟩)
    | some l =>
      show (∃ i, fetchLine l s = _) ∨ (∃ r, fetchLine l s = _) ∨ fetchLine l s = _
      unfold fetchLine
      cases decodeLine l with
      | ok i => exact .inl ⟨i, rfl⟩
      | error e => exact .inr (.inl ⟨_, rfl⟩)
  · exact .inr (.inr rfl)

/-- A fetched instruction runs on the state with, at most, the move taken off. -/
theorem fetch_run {s u : State} {i : Instr} (h : fetch s = .run i u) : ∃ ts, u = s.withTurns ts := by
  have client : ∀ v : State, fetchClient v = .run i u → u = v := by
    intro v hv
    rcases fetchClient_cases v with ⟨j, e⟩ | ⟨r, e⟩ | e <;> rw [e] at hv <;> cases hv
    rfl
  unfold fetch at h
  split at h
  · cases h
  · unfold fetchRequest at h
    split at h
    · exact ⟨_, ((Fetched.run.inj h).2).symm⟩
    · cases h
  · split at h
    · exact ⟨_, client _ h⟩
    · cases h
  · split at h
    · exact ⟨s.turns, client _ h⟩
    · cases h

/-- A step that runs no instruction builds the machine again, ends the run, or passes a client's turn. -/
theorem fetch_done {s u : State} (h : fetch s = .done u) :
    (∃ ts, s.turns = .reset :: ts ∧ u = rebuild (s.withTurns ts)) ∨
    (s.turns.head? ≠ some .reset ∧ s.running ∧ ∃ ts r, u = haltRun r (idlePorts (s.withTurns ts))) ∨
    (s.turns.head? ≠ some .reset ∧ ∃ ts, u = idlePorts (s.withTurns ts)) := by
  have client : ∀ v : State, fetchClient v = .done u → ∃ r, u = haltRun r (idlePorts v) := by
    intro v hv
    rcases fetchClient_cases v with ⟨j, e⟩ | ⟨r, e⟩ | e <;> rw [e] at hv <;> cases hv
    exact ⟨r, rfl⟩
  unfold fetch at h
  split at h
  · rename_i ts hts
    exact .inl ⟨ts, hts, (Fetched.done.inj h).symm⟩
  · unfold fetchRequest at h
    split at h <;> cases h
  · rename_i ts hts
    split at h
    · rename_i hr
      obtain ⟨r, hr'⟩ := client _ h
      exact .inr (.inl ⟨by simp [hts], hr, ts, r, hr'⟩)
    · exact .inr (.inr ⟨by simp [hts], ts, (Fetched.done.inj h).symm⟩)
  · rename_i hts
    split at h
    · rename_i hr
      obtain ⟨r, hr'⟩ := client _ h
      exact .inr (.inl ⟨by simp [hts], hr, s.turns, r, hr'⟩)
    · cases h

/-- Where a next state of `step` comes from. -/
theorem step_cases {s t : State} (h : step s = .next t) :
    (∃ i u, fetch s = .run i u ∧ exec i u = .next t) ∨ fetch s = .done t := by
  unfold step at h
  split at h
  · exact .inl ⟨_, _, ‹_›, h⟩
  · obtain rfl := Host.Outcome.next.inj h; exact .inr ‹_›
  · cases h
  · cases h

end Sys2Proof.Machine
end

