-- ==== Sys2Proof/Laws/Text.lean ====
section
/-! SUPPORT. Tokens and decimal numerals: what is shown is read back (30_encoding.md R80 to R84). -/

namespace Sys2Proof

/-! ## Digits -/

/-- A decimal digit reads as its value. -/
theorem digitValue_ofNat {d : Nat} (h : d < 10) : digitValue (Char.ofNat (48 + d)) = some d := by
  interval_cases d <;> decide

/-- The characters of decimal numerals. -/
abbrev isDigit (c : Char) : Prop := 48 ≤ c.toNat ∧ c.toNat ≤ 57

theorem isDigit_ofNat {d : Nat} (h : d < 10) : isDigit (Char.ofNat (48 + d)) := by
  interval_cases d <;> decide

theorem isDigit_showDigits : ∀ (fuel n : Nat) (acc : Token), (∀ c ∈ acc, isDigit c) →
    ∀ c ∈ showDigits fuel n acc, isDigit c
  | 0, _, _, h => h
  | fuel + 1, n, acc, h => by
    unfold showDigits
    split
    · rename_i hn
      intro c hc
      rcases List.mem_cons.mp hc with hc | hc
      · exact hc ▸ isDigit_ofNat hn
      · exact h c hc
    · refine isDigit_showDigits fuel _ _ fun c hc => ?_
      rcases List.mem_cons.mp hc with hc | hc
      · exact hc ▸ isDigit_ofNat (Nat.mod_lt _ (by decide))
      · exact h c hc

theorem showDigits_ne_nil : ∀ (fuel n : Nat) (acc : Token), acc ≠ [] ∨ 0 < fuel → showDigits fuel n acc ≠ []
  | 0, _, _, h => by simpa [showDigits] using h
  | fuel + 1, n, acc, _ => by
    unfold showDigits
    split
    · simp
    · exact showDigits_ne_nil fuel _ _ (.inl (by simp))

/-- The digits shown are read back in front of what follows them. -/
theorem parseDigits_showDigits : ∀ (fuel n : Nat) (acc : Token), n < fuel →
    parseDigits 0 (showDigits fuel n acc) = parseDigits n acc
  | fuel + 1, n, acc, h => by
    unfold showDigits
    split
    · rename_i hn
      simp [parseDigits, digitValue_ofNat hn]
    · rw [parseDigits_showDigits fuel (n / 10) _ (by omega)]
      simp [parseDigits, digitValue_ofNat (Nat.mod_lt n (by decide : 0 < 10)), Nat.div_add_mod' n 10]

theorem isDigit_showNat (n : Nat) : ∀ c ∈ showNat n, isDigit c := isDigit_showDigits _ _ _ (by simp)

theorem showNat_ne_nil (n : Nat) : showNat n ≠ [] := showDigits_ne_nil _ _ _ (.inr (Nat.succ_pos n))

/-- A natural number shown in decimal is read back. -/
theorem parseNat_showNat (n : Nat) : parseNat (showNat n) = some n := by
  have h := parseDigits_showDigits (n + 1) n [] (Nat.lt_succ_self n)
  unfold showNat
  cases hs : showDigits (n + 1) n [] with
  | nil => exact absurd hs (showNat_ne_nil n)
  | cons c cs => rw [hs] at h; simpa [parseNat, parseDigits] using h

/-! ## Tokens -/

/-- R83: an integer shown in decimal is read back. -/
theorem parseInt_showInt (v : Int) : parseInt (showInt v) = some v := by
  have h := parseNat_showNat v.natAbs
  unfold showInt
  split
  · have hv : -(v.natAbs : Int) = v := by omega
    rw [parseInt, if_pos rfl, h]
    exact congrArg some hv
  · cases hs : showNat v.natAbs with
    | nil => exact absurd hs (showNat_ne_nil _)
    | cons c cs =>
      have hd := isDigit_showNat v.natAbs c (by rw [hs]; simp)
      have hc : c ≠ '-' := by rintro rfl; exact absurd hd (by decide)
      rw [hs] at h
      have hv : (v.natAbs : Int) = v := by omega
      rw [parseInt, if_neg hc, h]
      exact congrArg some hv

/-- R82: a register token is read back. -/
theorem parseReg_showReg (r : Reg) : parseReg (showReg r) = some r := by
  simp [parseReg, showReg, parseNat_showNat]

/-- The text before and after the first separator is found. -/
theorem splitAtChar_append {sep : Char} : ∀ {l : Token} (r : Token), sep ∉ l →
    splitAtChar sep (l ++ sep :: r) = some (l, r)
  | [], r, _ => by simp [splitAtChar]
  | c :: cs, r, h => by
    have hc : c ≠ sep := fun e => h (e ▸ List.mem_cons_self ..)
    simp [splitAtChar, hc, splitAtChar_append r (fun hm => h (List.mem_cons_of_mem _ hm))]

theorem not_mem_showInt {c : Char} (h : ¬ isDigit c) (hm : c ≠ '-') (v : Int) : c ∉ showInt v := by
  unfold showInt
  split
  · intro hc
    rcases List.mem_cons.mp hc with hc | hc
    · exact hm hc
    · exact h (isDigit_showNat _ c hc)
  · exact fun hc => h (isDigit_showNat _ c hc)

theorem not_mem_showReg {c : Char} (h : ¬ isDigit c) (hm : c ≠ 'R') (r : Reg) : c ∉ showReg r := by
  intro hc
  rcases List.mem_cons.mp hc with hc | hc
  · exact hm hc
  · exact h (isDigit_showNat _ c hc)

/-- R84: a memory operand is read back. -/
theorem parseMem_showMem (o : Int) (r : Reg) : parseMem (showMem o r) = some (o, r) := by
  have ho : '(' ∉ showInt o := not_mem_showInt (by decide) (by decide) o
  have hr : ')' ∉ showReg r := not_mem_showReg (by decide) (by decide) r
  have h1 : splitAtChar '(' (showMem o r) = some (showInt o, showReg r ++ [')']) := splitAtChar_append _ ho
  have h2 : splitAtChar ')' (showReg r ++ [')']) = some (showReg r, []) := splitAtChar_append _ hr
  simp [parseMem, h1, h2, parseInt_showInt, parseReg_showReg]

theorem comma_not_mem_showMem (o : Int) (r : Reg) : ',' ∉ showMem o r := by
  have h1 : ',' ∉ showInt o := not_mem_showInt (by decide) (by decide) o
  have h2 : ',' ∉ showReg r := not_mem_showReg (by decide) (by decide) r
  simp [showMem, h1, h2]

/-! ## Lines -/

theorem splitTokens_append : ∀ {t : Token} (r : Line), ',' ∉ t → splitTokens (t ++ ',' :: r) = t :: splitTokens r
  | [], r, _ => by simp [splitTokens]
  | c :: cs, r, h => by
    have hc : c ≠ ',' := fun e => h (e ▸ List.mem_cons_self ..)
    simp [splitTokens, hc, splitTokens_append r (fun hm => h (List.mem_cons_of_mem _ hm))]

theorem splitTokens_single : ∀ {t : Token}, ',' ∉ t → splitTokens t = [t]
  | [], _ => rfl
  | c :: cs, h => by
    have hc : c ≠ ',' := fun e => h (e ▸ List.mem_cons_self ..)
    simp [splitTokens, hc, splitTokens_single (fun hm => h (List.mem_cons_of_mem _ hm))]

/-- R80: the tokens of a line made of tokens without commas. -/
theorem splitTokens_joinTokens : ∀ {t : Token} {ts : List Token}, (∀ u ∈ t :: ts, ',' ∉ u) →
    splitTokens (joinTokens t ts) = t :: ts
  | t, [], h => splitTokens_single (h t (List.mem_cons_self ..))
  | t, u :: us, h => by
    unfold joinTokens
    rw [splitTokens_append _ (h t (List.mem_cons_self ..)),
      splitTokens_joinTokens (fun x hx => h x (List.mem_cons_of_mem _ hx))]

/-- R85: each opcode is found by its own token, which holds no comma. -/
theorem opcodeOf_token (o : Opcode) : opcodeOf o.token = some o := by cases o <;> decide

theorem comma_not_mem_token (o : Opcode) : ',' ∉ o.token := by cases o <;> decide

/-- What `opcodeOf` answers. -/
theorem opcodeOf_eq_some {t : Token} {o : Opcode} (h : opcodeOf t = some o) : o.token = t := by
  have := List.find?_some h
  simpa using this

theorem opcodeOf_eq_none {t : Token} : opcodeOf t = none ↔ ∀ o : Opcode, o.token ≠ t := by
  have hall : ∀ o : Opcode, o ∈ allOpcodes := by intro o; cases o <;> decide
  unfold opcodeOf
  rw [List.find?_eq_none]
  exact ⟨fun h o => by simpa using h o (hall o), fun h o _ => by simpa using h o⟩

/-- A line whose tokens decode: what `decodeLine` answers for an encoded line. -/
theorem decodeLine_joinTokens {o : Opcode} {args : List Token} {i : Instr} (h : ∀ u ∈ args, ',' ∉ u)
    (hd : decodeOperands o args = some i) : decodeLine (joinTokens o.token args) = .ok i := by
  have hs : splitTokens (joinTokens o.token args) = o.token :: args :=
    splitTokens_joinTokens (fun u hu => by
      rcases List.mem_cons.mp hu with hu | hu
      · exact hu ▸ comma_not_mem_token o
      · exact h u hu)
  simp [decodeLine, hs, opcodeOf_token, hd]

end Sys2Proof
end

