-- ==== Sys2Proof/Tests/Slice0.lean ====
section
/-! SUPPORT. The model's own tests: the ill-formed term that WellFormed refuses, the decoding of every constructor from a
raw form written out from 30_encoding.md, single steps whose expected results are those of 95_test_vectors.md (named
in each comment), and a witness for the hypotheses of each statement. -/

namespace Sys2Proof.Tests

open Sys2Proof.Machine

/-! ## Small states -/

/-- The start state of 95_test_vectors.md: 16 words, 2 entries, enabled. -/
def start : State := State.blank Params.default 16 2 []

/-- `start` with these entries, dirty addresses and non-zero words. -/
def sys (ent : List Entry) (dirty : List Int) (cells : List Cell) : State :=
  { start with
    mem := { start.mem with cells := cells }
    cache := { start.cache with ent := ent, dirty := dirty } }

def disabled (s : State) : State := { s with cache := { s.cache with en := false } }
def sized (mem cache : Nat) (s : State) : State :=
  { s with mem := { s.mem with capacity := mem }, cache := { s.cache with capacity := cache } }
def reg (i : Reg) (v : Word) (s : State) : State := writeReg i v s
def at' (pc : Int) (s : State) : State := { s with client := { s.client with pc := pc } }
def stream (p : List Line) (s : State) : State := { s with prog := p }
def turn (t : Turn) (s : State) : State := { s with turns := [t] }
def ended (r : HaltReason) (s : State) : State := { s with client := { s.client with halted := some r } }

/-- What a next state shows; `none` where there is no next state. -/
def shows {α : Type} (f : State → α) (o : Host.Outcome State Fault Refusal) : Option α :=
  match o with
  | .next t => some (f t)
  | _ => none

/-- The refusal of an outcome. -/
def refusal? (o : Host.Outcome State Fault Refusal) : Option Refusal :=
  match o with
  | .refused r => some r
  | _ => none

/-- The fault of an outcome. -/
def fault? (o : Host.Outcome State Fault Refusal) : Option Fault :=
  match o with
  | .fault f => some f
  | _ => none

/-- The error that a construction ends with. -/
def buildError? (r : Except Error State) : Option Error :=
  match r with
  | .error e => some e
  | .ok _ => none

def counters (s : State) : Nat × Nat × Nat × Nat := (s.cache.hits, s.cache.misses, s.cache.total, s.cache.lat)

/-! ## WellFormed -/

/-- R74: the row of the invalid codes takes none of 0, 1, 2. -/
theorem test_invalid_row_refuses_legal_codes :
    (Instr.cacheControlInvalid 0).wellFormed = false ∧ (Instr.cacheControlInvalid 1).wellFormed = false ∧
      (Instr.cacheControlInvalid 2).wellFormed = false := by decide
theorem test_invalid_row_takes_other_codes :
    (Instr.cacheControlInvalid 3).wellFormed = true ∧ (Instr.cacheControlInvalid (-1)).wellFormed = true := by decide

/-! ## Decoding: the command port (R72 to R74) -/

theorem test_decode_cacheRead : decode (.request { cmd := 0b0001#4, addr := 7 }) = .ok (.cacheRead 7) := by decide
theorem test_decode_cacheWrite :
    decode (.request { cmd := 0b0010#4, addr := 0, wdata := -7 }) = .ok (.cacheWrite 0 0xFFFFFFF9#32) := by decide
theorem test_decode_cacheControlDisable :
    decode (.request { cmd := 0b0011#4, code := 0 }) = .ok .cacheControlDisable := by decide
theorem test_decode_cacheControlEnable :
    decode (.request { cmd := 0b0011#4, code := 1 }) = .ok .cacheControlEnable := by decide
theorem test_decode_cacheControlFlush :
    decode (.request { cmd := 0b0011#4, code := 2 }) = .ok .cacheControlFlush := by decide
theorem test_decode_cacheControlInvalid :
    decode (.request { cmd := 0b0011#4, code := -1 }) = .ok (.cacheControlInvalid (-1)) := by decide
/-- The CACHE_CONTROL row names the requests of its four sub-rows. -/
theorem test_decode_cacheControl :
    decode (encode (.cacheControl 2)) = .ok (Instr.cacheControl 2).canonical ∧
      (Instr.cacheControl 2).canonical = .cacheControlFlush := by decide
theorem test_decode_syncWithMemory : decode (.request { cmd := 0b0100#4 }) = .ok .syncWithMemory := by decide
theorem test_decode_cacheFlush : decode (.request { cmd := 0b0101#4 }) = .ok .cacheFlush := by decide
theorem test_decode_status : decode (.request { cmd := 0b0110#4 }) = .ok .status := by decide
theorem test_decode_memRead : decode (.request { cmd := 0b1000#4, addr := -1 }) = .ok (.memRead (-1)) := by decide
theorem test_decode_memWrite :
    decode (.request { cmd := 0b1001#4, addr := 3, wdata := 2147483648 }) = .ok (.memWrite 3 2147483648) := by decide
theorem test_decode_memFlush : decode (.request { cmd := 0b1010#4 }) = .ok .memFlush := by decide
theorem test_decode_memResetToInitial : decode (.request { cmd := 0b1011#4 }) = .ok .memResetToInitial := by decide
theorem test_decode_reserved :
    decode (.request { cmd := 0b0000#4 }) = .ok .reserved0 ∧ decode (.request { cmd := 0b0111#4 }) = .ok .reserved7 ∧
      decode (.request { cmd := 0b1100#4 }) = .ok .reserved12 ∧
      decode (.request { cmd := 0b1101#4 }) = .ok .reserved13 ∧
      decode (.request { cmd := 0b1110#4 }) = .ok .reserved14 ∧
      decode (.request { cmd := 0b1111#4 }) = .ok .reserved15 := by decide
/-- R102, U5: a value that is no Word is refused. -/
theorem test_decode_wide_write :
    decode (.request { cmd := 0b0010#4, wdata := 2147483648 }) = .error (.request (.wdataNotWord 2147483648)) ∧
      decode (.request { cmd := 0b0010#4, wdata := -2147483648 }) = .ok (.cacheWrite 0 0x80000000#32) := by decide

/-! ## Decoding: client lines (R80 to R86; V-E1 to V-E10) -/

theorem test_decode_add : decodeLine "ADD,R3,R1,R2".toList = .ok (.add 3 1 2) := by decide
theorem test_decode_addi : decodeLine "ADDI,R2,R1,-6".toList = .ok (.addi 2 1 (-6)) := by decide
theorem test_decode_sub : decodeLine "SUB,R31,R0,R10".toList = .ok (.sub 31 0 10) := by decide
theorem test_decode_slt : decodeLine "SLT,R3,R1,R0".toList = .ok (.slt 3 1 0) := by decide
theorem test_decode_bne : decodeLine "BNE,R1,R2,-3".toList = .ok (.bne 1 2 (-3)) := by decide
theorem test_decode_j : decodeLine "J,10".toList = .ok (.j 10) := by decide
theorem test_decode_jal : decodeLine "JAL,6".toList = .ok (.jal 6) := by decide
theorem test_decode_lw : decodeLine "LW,R2,-3(R1)".toList = .ok (.lw 2 (-3) 1) := by decide
theorem test_decode_sw : decodeLine "SW,R3,20(R0)".toList = .ok (.sw 3 20 0) := by decide
theorem test_decode_cache : decodeLine "CACHE,3".toList = .ok (.cache 3) := by decide
theorem test_decode_halt : decodeLine "HALT".toList = .ok .halt := by decide

/-- V-E1, V-E2, V-E10. -/
theorem test_unknown_operation :
    decodeLine "FOO".toList = .error (.unknownOperation "FOO".toList) ∧
      decodeLine "add,R1,R2,R3".toList = .error (.unknownOperation "add".toList) ∧
      decodeLine "FOO,R1".toList = .error (.unknownOperation "FOO".toList) := by decide
/-- V-E3 to V-E7, V-E9, V-E10. -/
theorem test_malformed_instruction :
    ["ADD,R1,R2", "ADD,R1,R2,5", "LW,R1,4", "LW,R1,4(R32)", "CACHE,two", "HALT,1", "ADD,R1"].all
      (fun l => decide (decodeLine l.toList = .error (.malformedInstruction l.toList))) = true := by decide

/-! ## The load format (V-T1 to V-T7) -/

theorem test_load_lines :
    decodeLoadLine "10,7".toList = some (2, 7) ∧ decodeLoadLine "12,-4".toList = some (12, -4) ∧
      decodeLoadLine "0101,1".toList = some (5, 1) ∧ decodeLoadLine "-1,5".toList = some (-1, 5) := by decide
/-- V-T6: both lines name address 4; the later one wins. -/
theorem test_load_repeated_address :
    (match boot Params.default 16 2 ⟨[], some ["4,1".toList, "100,2".toList]⟩ ⟨[], some []⟩ with
      | .next s => some (s.mem.cells, s.mem.snap)
      | _ => none) = some ([(4, 2#32)], [(4, 2#32)]) := by decide
/-- V-T4, V-T5, V-T7 and R177. -/
theorem test_load_errors :
    buildError? (construct Params.default 16 2 [(31, 1)] []) = some (.outOfBounds 31) ∧
      buildError? (construct Params.default 16 2 [(3, 2147483648)] []) = some (.valueOutOfRange 2147483648) ∧
      buildError? (construct Params.default 16 2 [(-1, 5)] []) = some (.outOfBounds (-1)) ∧
      boot Params.default 16 2 ⟨"img".toList, none⟩ ⟨[], some []⟩ = .fault (.sourceNotFound "img".toList) :=
  ⟨by decide, by decide, by decide, rfl⟩

/-! ## The table's words and the fetch -/

/-- The bits above bit 3 belong to no row's mask. -/
theorem test_table_words :
    decodeTableWord 8 0x01 = some (.cacheRead 0) ∧ decodeTableWord 8 0x09 = some (.memWrite 0 0) ∧
      decodeTableWord 8 0x03 = some .cacheControlDisable ∧ decodeTableWord 8 0x0F = some .reserved15 ∧
      decodeTableWord 8 0xF6 = some .status := by decide
theorem test_fetch_word_runs :
    step (State.reset.withFetchWord 8 0x0A) = exec .memFlush State.reset ∧
      shows (·.cache.dirty) (step (State.reset.withFetchWord 8 0x02)) = some [0] := ⟨rfl, by decide⟩
/-- R150: line `pc / INSTR_SIZE`; S11 and V-X17: an unknown opcode and the end of the stream halt the run. -/
theorem test_step_client :
    shows (fun t => (readReg 1 t, t.client.pc)) (step (at' 4 (stream ["FOO".toList, "ADDI,R1,R0,1".toList] start))) =
        some (1#32, 8) ∧
      shows (·.client.halted) (step (stream ["FOO".toList] start)) =
        some (some (.error (.unknownOperation (.token "FOO".toList)))) ∧
      shows (·.client.halted) (step (at' 28 (stream ["J,7".toList] start))) = some (some .exhausted) := by decide
/-- The moves of the host: a command between two client instructions, building again, and no step after the end. -/
theorem test_step_turns :
    shows (fun t => (t.out.resp, t.turns)) (step (turn (.host { cmd := 0b1000#4, addr := 16 }) start)) =
        some (some { error := some (.outOfBounds 16) }, []) ∧
      shows (fun t => (t.cache.ent, t.cache.dirty, t.mem.cells)) (step (turn .reset (sys [⟨0, 1#32⟩] [0] [(1, 1#32)]))) =
        some ([], [], []) ∧
      fault? (step (ended .halt start)) = some (.halted .halt) := by decide

/-! ## Cache access (V-A1 to V-A14) -/

/-- V-A1. -/
theorem test_cacheRead_miss :
    shows (fun t => (t.cache.ent, counters t)) (exec (.cacheRead 7) (sys [] [] [(7, 70#32)])) =
        some ([⟨7, 70#32⟩], (0, 1, 1, 10)) ∧
      shows (fun t => (t.out.resp, t.out.txns)) (exec (.cacheRead 7) (sys [] [] [(7, 70#32)])) =
        some (some { rdata := some 70#32 }, [.read 7 (some 70#32)]) := by decide
/-- V-A11: the failing miss is counted and nothing is installed. -/
theorem test_cacheRead_failing_miss :
    shows (fun t => (t.cache.ent, counters t, t.out.resp)) (exec (.cacheRead 4) (sized 4 2 start)) =
      some ([], (0, 1, 1, 10), some { error := some (.outOfBounds 4) }) := by decide
/-- V-A7, first request: the rewrite moves address 0 to the newest position. -/
theorem test_cacheWrite_rewrite_moves :
    shows (fun t => (t.cache.ent, t.cache.dirty, counters t))
        (exec (.cacheWrite 0 11#32) (sys [⟨0, 10#32⟩, ⟨1, 20#32⟩] [0, 1] [])) =
      some ([⟨1, 20#32⟩, ⟨0, 11#32⟩], [0, 1], (0, 0, 0, 0)) := by decide
/-- S8, third request: the oldest entry is evicted, its address stays dirty, and the port is idle. -/
theorem test_cacheWrite_evicts :
    shows (fun t => (t.cache.ent, t.cache.dirty, t.out.txns))
        (exec (.cacheWrite 2 30#32) (sys [⟨0, 10#32⟩, ⟨1, 20#32⟩] [0, 1] [])) =
      some ([⟨1, 20#32⟩, ⟨2, 30#32⟩], [0, 1, 2], []) := by decide

/-! ## Cache control, sync, flush, status (V-C1 to V-C15) -/

/-- V-C1. -/
theorem test_cacheControlDisable :
    shows (fun t => (t.cache.en, t.cache.ent, t.cache.dirty)) (exec .cacheControlDisable (sys [⟨0, 10#32⟩] [0] [])) =
      some (false, [⟨0, 10#32⟩], [0]) := by decide
/-- V-C2. -/
theorem test_cacheControlEnable :
    shows (fun t => (t.cache.en, t.cache.ent)) (exec .cacheControlEnable (disabled (sys [⟨0, 10#32⟩] [0] []))) =
      some (true, [⟨0, 10#32⟩]) := by decide
/-- V-C4. -/
theorem test_cacheControlFlush :
    shows (fun t => (t.cache.ent, t.cache.dirty, t.out.txns))
        (exec .cacheControlFlush (sys [⟨1, 20#32⟩, ⟨2, 30#32⟩] [0, 1, 2] [])) =
      some ([], [], [.write 1 20#32 true, .write 2 30#32 true]) := by decide
/-- V-C10: the flush stops at address 9; the entry before it is written, the cache is untouched. -/
theorem test_cacheControl_failing_flush :
    shows (fun t => (t.cache.ent.length, t.cache.dirty, t.mem.cells, t.out.resp))
        (exec (.cacheControl 2) (sized 4 3 (sys [⟨1, 11#32⟩, ⟨9, 1#32⟩, ⟨2, 22#32⟩] [1, 2, 9] []))) =
      some (3, [1, 2, 9], [(1, 11#32)], some { error := some (.outOfBounds 9) }) := by decide
/-- V-C6. -/
theorem test_cacheControlInvalid :
    shows (fun t => (t.out.resp, t.out.resp.map Response.err)) (exec (.cacheControlInvalid (-1)) start) =
      some (some { error := some (.invalidControlCode (-1)) }, some 3#3) := by decide
/-- V-C7: the stale address 9 is dropped, the clean entry is not written. -/
theorem test_syncWithMemory :
    shows (fun t => (t.cache.ent.length, t.cache.dirty, t.mem.cells))
        (exec .syncWithMemory (sized 16 4 (sys [⟨1, 20#32⟩, ⟨2, 30#32⟩, ⟨3, 40#32⟩] [1, 3, 9] []))) =
      some (3, [], [(1, 20#32), (3, 40#32)]) := by decide
/-- V-C9: the sync ignores the enable bit. -/
theorem test_syncWithMemory_disabled :
    shows (fun t => (t.cache.dirty, t.mem.cells)) (exec .syncWithMemory (disabled (sys [⟨0, 10#32⟩] [0] [(0, 99#32)]))) =
      some ([], [(0, 10#32)]) := by decide
/-- V-C14. -/
theorem test_cacheFlush :
    shows (fun t => (t.cache.ent, t.cache.dirty, t.mem.cells)) (exec .cacheFlush (sys [⟨0, 10#32⟩] [0] [])) =
      some ([], [], [(0, 10#32)]) := by decide
/-- V-C11. -/
theorem test_status :
    shows (·.out.resp)
        (exec .status
          { start with
            cache :=
              { capacity := 4, ent := [⟨0, 10#32⟩, ⟨5, 1#32⟩], dirty := [0], en := true
                hits := 1, misses := 1, total := 2, lat := 11 } }) =
      some (some (respStatus
        { enabled := true, current := 2, capacity := 4, utilization := 50, dirtyCount := 1, resident := [0, 5],
          hits := 1, misses := 1, hitRate := 50, avgAccessTime := mkRat 11 2 })) := by decide
/-- V-C12. -/
theorem test_status_no_capacity :
    shows (·.out.resp) (exec .status (sized 16 0 start)) =
      some (some (respStatus
        { enabled := true, current := 0, capacity := 0, utilization := 0, dirtyCount := 0, resident := [],
          hits := 0, misses := 0, hitRate := 0, avgAccessTime := 0 })) := by decide

/-! ## The backing store (V-M1 to V-M14) and the reserved commands -/

/-- V-M2 and V-M3: the last address, and the one after it. -/
theorem test_memRead :
    shows (·.out.resp) (exec (.memRead 15) start) = some (some { rdata := some 0#32 }) ∧
      shows (·.out.resp) (exec (.memRead 16) start) = some (some { error := some (.outOfBounds 16) }) := by decide
/-- V-M6 and V-M11: the least Word, and a 0 that takes the cell out. -/
theorem test_memWrite :
    shows (·.mem.cells) (exec (.memWrite 3 (-2147483648)) start) = some [(3, 0x80000000#32)] ∧
      shows (·.mem.cells) (exec (.memWrite 3 0) (sys [] [] [(3, 5#32)])) = some [] := by decide
/-- V-M7 and V-M10: the bounds test comes before the range test. -/
theorem test_memWrite_errors :
    shows (·.out.resp) (exec (.memWrite 3 2147483648) start) =
        some (some { error := some (.valueOutOfRange 2147483648) }) ∧
      shows (·.out.resp) (exec (.memWrite 16 2147483648) start) = some (some { error := some (.outOfBounds 16) }) := by
  decide
/-- V-M13. -/
theorem test_memFlush :
    shows (fun t => (t.mem.cells, t.mem.snap))
        (exec .memFlush { start with mem := ⟨16, [(0, 5#32), (2, 7#32)], [(0, 5#32), (2, 7#32)]⟩ }) =
      some ([], [(0, 5#32), (2, 7#32)]) := by decide
/-- V-M12. -/
theorem test_memResetToInitial :
    shows (·.mem.cells) (exec .memResetToInitial { start with mem := ⟨16, [(0, 5#32), (12, 9#32)], [(0, 5#32)]⟩ }) =
      some [(0, 5#32)] := by decide
/-- V-C15 and R73. -/
theorem test_reserved :
    ([(Instr.reserved0, 0#4), (.reserved7, 7#4), (.reserved12, 12#4), (.reserved13, 13#4), (.reserved14, 14#4),
      (.reserved15, 15#4)] : List (Instr × BitVec 4)).all
      (fun p => decide (shows (·.out.resp) (exec p.1 start) =
        some (some { error := some (.unknownOperation (.cmd p.2)) }))) = true := by decide

/-! ## The client (V-X1 to V-X18, V-P1 to V-P6) -/

/-- V-X1 and V-X2. -/
theorem test_add :
    shows (fun t => (readReg 3 t, t.client.pc)) (exec (.add 3 1 2) (reg 1 5#32 (reg 2 7#32 start))) = some (12#32, 4) ∧
      shows (readReg 0) (exec (.add 0 1 2) (reg 1 5#32 (reg 2 7#32 start))) = some 0#32 := by decide
/-- V-X5. -/
theorem test_addi : shows (readReg 2) (exec (.addi 2 1 (-6)) (reg 1 5#32 start)) = some 0xFFFFFFFF#32 := by decide
/-- V-X4: a result that is no Word is refused. -/
theorem test_addi_refused :
    refusal? (exec (.addi 2 1 1) (reg 1 0x7FFFFFFF#32 start)) = some (.resultNotWord 2147483648) := by decide
/-- V-X6. -/
theorem test_sub : shows (readReg 3) (exec (.sub 3 1 2) (reg 1 5#32 (reg 2 7#32 start))) = some 0xFFFFFFFE#32 := by decide
/-- V-X7. -/
theorem test_sub_refused :
    refusal? (exec (.sub 3 1 2) (reg 1 0x80000000#32 (reg 2 1#32 start))) = some (.resultNotWord (-2147483649)) := by decide
/-- V-X8 and V-X9. -/
theorem test_slt :
    shows (readReg 3) (exec (.slt 3 1 0) (reg 1 0xFFFFFFFF#32 start)) = some 1#32 ∧
      shows (readReg 3) (exec (.slt 3 1 1) (reg 1 7#32 start)) = some 0#32 := by decide
/-- V-X10 with either base, and V-X11. -/
theorem test_bne :
    shows (·.client.pc) (exec (.bne 1 0 (-2)) (at' 8 (reg 1 1#32 start))) = some 0 ∧
      shows (·.client.pc) (exec (.bne 1 0 (-2))
        (at' 8 { reg 1 1#32 start with params := { Params.default with branchBase := .next } })) = some 4 ∧
      shows (·.client.pc) (exec (.bne 1 0 (-2)) (at' 8 start)) = some 12 := by decide
/-- V-X13. -/
theorem test_j : shows (·.client.pc) (exec (.j 3) (at' 8 start)) = some 12 := by decide
/-- V-X14. -/
theorem test_jal : shows (fun t => (readReg 31 t, t.client.pc)) (exec (.jal 5) (at' 8 start)) = some (12#32, 20) := by
  decide
/-- V-P5, fourth line: the destination is the base. -/
theorem test_lw :
    shows (fun t => (readReg 1 t, t.client.pc, t.out.issued))
        (exec (.lw 1 1 1) (disabled (reg 1 4#32 (sys [] [] [(5, 6#32)])))) =
      some (6#32, 4, some { cmd := 0b0001#4, addr := 5 }) := by decide
/-- V-P1: a load into R0 makes the whole read. -/
theorem test_lw_zero :
    shows (fun t => (readReg 0 t, t.cache.ent, counters t)) (exec (.lw 0 3 0) (sys [] [] [(3, 77#32)])) =
      some (0#32, [⟨3, 77#32⟩], (0, 1, 1, 10)) := by decide
/-- V-P3, third line: an enabled store out of bounds is accepted. -/
theorem test_sw :
    shows (fun t => (t.cache.ent, t.cache.dirty, t.client.pc)) (exec (.sw 1 (-3) 1) (reg 1 2#32 start)) =
      some ([⟨-1, 2#32⟩], [-1], 4) := by decide
/-- A disabled store out of bounds halts the run in place (R145). -/
theorem test_sw_error :
    shows (fun t => (t.client.halted, t.client.pc)) (exec (.sw 1 16 0) (at' 8 (disabled start))) =
      some (some (.error (.outOfBounds 16)), 8) := by decide
/-- P1, line 7. -/
theorem test_cache :
    shows (fun t => (t.mem.cells, t.cache.ent, t.client.pc)) (exec (.cache 2) (at' 28 (sys [⟨0, 12#32⟩] [0] []))) =
      some ([(0, 12#32)], [], 32) := by decide
/-- S11. -/
theorem test_cache_invalid :
    shows (fun t => (t.client.halted, t.client.pc)) (exec (.cache 3) start) =
      some (some (.error (.invalidControlCode 3)), 0) := by decide
/-- V-X16. -/
theorem test_halt :
    shows (fun t => (t.client.halted, t.client.pc, t.cache.dirty)) (exec .halt (at' 8 (sys [⟨0, 10#32⟩] [0] []))) =
      some (some .halt, 8, [0]) := by decide

/-! ## Witnesses: states and operands that meet the hypotheses of the statements, clause by clause -/

/-- There is a next state. -/
def runs (o : Host.Outcome State Fault Refusal) : Bool := (shows (fun _ => ()) o).isSome

theorem witness_EncodeThenDecodeGivesCanonical :
    (Instr.cacheControlInvalid 3).wellFormed = true ∧ (Instr.cacheControl 2).wellFormed = true ∧
      (Instr.lw 31 (-3) 0).wellFormed = true := by decide

theorem witness_DecodedInstrIsWellFormed :
    decode (.line "J,0".toList) = .ok (.j 0) ∧ decode (.request { cmd := 3#4, code := 3 }) = .ok (.cacheControlInvalid 3) := by
  decide

theorem witness_LineErrorsAreClassified :
    splitTokens "FOO,R1".toList = ["FOO".toList, "R1".toList] ∧ (∀ o ∈ allOpcodes, o.token ≠ "FOO".toList) ∧
      splitTokens "J,3".toList = ["J".toList, "3".toList] ∧ Opcode.token .j = "J".toList ∧
      decodeOperands .j ["3".toList] = some (.j 3) ∧
      splitTokens "ADD,R1".toList = ["ADD".toList, "R1".toList] ∧ Opcode.token .add = "ADD".toList ∧
      decodeOperands .add ["R1".toList] = none := by decide

theorem witness_BinaryAddressTokenIsBase2 :
    [true, false] ≠ [] ∧ [true, false].map (fun b => if b then '1' else '0') = "10".toList ∧
      parseAddrToken "10".toList = some 2 := by decide

theorem witness_StepRunsHostCommand :
    (turn (.host { cmd := 8#4, addr := 3 }) start).turns = [.host { cmd := 8#4, addr := 3 }] ∧
      decode (.request { cmd := 8#4, addr := 3 }) = .ok (.memRead 3) := by decide

/-- With no move of the host left, and with the client's turn named. -/
theorem witness_StepRunsClientLine :
    (stream ["HALT".toList] start).turns = [] ∧ (turn .client (stream ["HALT".toList] start)).turns = [.client] ∧
      start.running ∧ pcDefined start ∧
      (stream ["HALT".toList] start).prog[((stream ["HALT".toList] start).client.pc / start.params.instrSize).toNat]? =
        some "HALT".toList ∧
      decode (.line "HALT".toList) = .ok .halt := by decide

theorem witness_UndecodableLineHaltsTheRun :
    (stream ["FOO".toList, "ADD,R1".toList] start).turns = [] ∧ pcDefined start ∧ pcDefined (at' 4 start) ∧
      (stream ["FOO".toList, "ADD,R1".toList] start).prog[(start.client.pc / start.params.instrSize).toNat]? =
        some "FOO".toList ∧
      (stream ["FOO".toList, "ADD,R1".toList] start).prog[((at' 4 start).client.pc / start.params.instrSize).toNat]? =
        some "ADD,R1".toList ∧
      decodeLine "FOO".toList = .error (.unknownOperation "FOO".toList) ∧
      decodeLine "ADD,R1".toList = .error (.malformedInstruction "ADD,R1".toList) := by decide

theorem witness_ExhaustedStreamHaltsTheRun :
    (at' 4 (stream ["HALT".toList] start)).turns = [] ∧ (at' 4 start).running ∧ pcDefined (at' 4 start) ∧
      (stream ["HALT".toList] start).prog.length ≤ ((at' 4 start).client.pc / start.params.instrSize).toNat := by decide

theorem witness_UndefinedPcAndWideWriteAreRefused :
    start.turns = [] ∧ (at' (-4) start).running ∧ (at' (-4) start).client.pc < 0 ∧
      (at' 2 start).client.pc % (at' 2 start).params.instrSize ≠ 0 ∧
      (turn (.host { cmd := 2#4, addr := 3, wdata := 2147483648 }) start).turns =
        [.host { cmd := 0b0010#4, addr := 3, wdata := 2147483648, code := 0 }] ∧
      (2147483647 : Int) < 2147483648 ∧ (-2147483649 : Int) < -2147483648 := by decide

theorem witness_EndedRunStaysEnded :
    ¬ (ended .halt start).running ∧ (turn (.host { cmd := 4#4 }) (ended .halt start)).turns.head? ≠ some .reset ∧
      runs (step (turn (.host { cmd := 4#4 }) (ended .halt start))) = true ∧
      runs (step (turn .client (ended .halt start))) = true ∧
      (ended .exhausted start).client.halted = some .exhausted ∧ (ended .exhausted start).turns = [] := by decide

theorem witness_ResetMoveRebuildsTheMachine : (turn .reset (sys [⟨0, 1#32⟩] [0] [])).turns = [.reset] := by decide

theorem witness_ConstructedMachineHoldsItsImage :
    ∃ s, construct Params.default 4 2 [(2, 7), (0, -4), (2, 9)] ["HALT".toList] = .ok s ∧ s.mem.InBounds 3 ∧
      s.mem.cells = [(0, 0xFFFFFFFC#32), (2, 9#32)] := ⟨_, rfl, by decide⟩

/-- The bounds of an address and of a value, on either side. -/
theorem witness_ConstructionFailsAtFirstBadPair :
    (∀ q ∈ ([(0, -2147483648), (3, 2147483647)] : List (Int × Int)),
        0 ≤ q.1 ∧ q.1 < (4 : Nat) ∧ -2147483648 ≤ q.2 ∧ q.2 ≤ 2147483647) ∧
      ((-1 : Int) < 0 ∨ ((4 : Nat) : Int) ≤ -1) ∧ ((4 : Int) < 0 ∨ ((4 : Nat) : Int) ≤ 4) ∧
      (0 : Int) ≤ 3 ∧ (3 : Int) < (4 : Nat) ∧ ((2147483648 : Int) < -2147483648 ∨ (2147483647 : Int) < 2147483648) ∧
      ((-2147483649 : Int) < -2147483648 ∨ (2147483647 : Int) < -2147483649) := by decide

theorem witness_InvariantKeptByEveryStep :
    State.Inv (turn (.host { cmd := 4#4 }) (sys [⟨1, 20#32⟩] [0, 1] [(5, 1#32)])) ∧
      runs (step (turn (.host { cmd := 4#4 }) (sys [⟨1, 20#32⟩] [0, 1] [(5, 1#32)]))) = true := by decide

theorem witness_ConstructedMachineMeetsInvariant :
    Params.default.wf ∧ ∃ s, construct Params.default 4 0 [(2, 7)] [] = .ok s := ⟨by decide, _, rfl⟩

theorem witness_FixedPartsNeverChange : ∃ t, step (stream ["HALT".toList] start) = .next t := ⟨_, rfl⟩

/-- A word that a sync changes, and a cause for it. -/
theorem witness_StoreChangesOnlyByListedCauses :
    (sys [⟨1, 20#32⟩] [1] []).mem.wf ∧ (sys [⟨1, 20#32⟩] [1] []).mem.InBounds 1 ∧
      shows (fun t => t.mem.word 1) (exec .syncWithMemory (sys [⟨1, 20#32⟩] [1] [])) = some 20#32 ∧
      (sys [⟨1, 20#32⟩] [1] []).mem.word 1 = 0#32 := by decide

/-- An address that enters the set, by a command and by SW, and one that leaves it. -/
theorem witness_DirtySetChangesOnlyByWriteAndSync :
    shows (·.cache.dirty) (exec (.cacheWrite 3 1#32) start) = some [3] ∧
      shows (·.cache.dirty) (exec (.sw 1 (-3) 0) start) = some [-3] ∧
      shows (·.cache.dirty) (exec .syncWithMemory (sys [] [9] [])) = some [] ∧ start.cache.dirty = [] := by decide

theorem witness_StatisticsMoveOnlyAtEnabledReads :
    shows counters (exec (.cacheRead 0) (sys [⟨0, 1#32⟩] [] [])) = some (1, 0, 1, 1) ∧
      shows counters (exec (.lw 1 16 0) start) = some (0, 1, 1, 10) := by decide

theorem witness_EnableBitChangesOnlyByControl :
    shows (·.cache.en) (exec (.cache 0) start) = some false ∧ start.cache.en = true ∧
      shows (·.cache.en) (exec (.cacheControl 1) (disabled start)) = some true := by decide

theorem witness_ClientIssuesOnlyItsThreeCommands :
    (Instr.lw 1 0 0).isClient = true ∧ runs (exec (.lw 1 0 0) start) = true ∧ runs (exec (.sw 1 0 0) start) = true ∧
      runs (exec (.cache 9) start) = true ∧ (Instr.add 1 2 3).isClient = true ∧ runs (exec (.add 1 2 3) start) = true := by
  decide

theorem witness_FailingClientInstructionHaltsInPlace :
    (Instr.lw 1 16 0).isClient = true ∧
      shows (·.out.resp) (exec (.lw 1 16 0) start) = some (some { error := some (.outOfBounds 16) }) := by decide

theorem witness_HostCommandsNeverTouchTheClient : (Instr.memRead 16).isClient = false := by decide

theorem witness_LookupFindsTheOneEntry :
    (sys [⟨0, 10#32⟩, ⟨-1, 2#32⟩] [] []).cache.unique ∧
      lookup (-1) (sys [⟨0, 10#32⟩, ⟨-1, 2#32⟩] [] []).cache.ent = some (1, 2#32) := by decide

/-- In bounds, and out of bounds (R109). -/
theorem witness_EnabledReadOfResidentHits :
    (sys [⟨9, 1#32⟩, ⟨-1, 2#32⟩] [] []).cache.en = true ∧
      lookup 9 (sys [⟨9, 1#32⟩, ⟨-1, 2#32⟩] [] []).cache.ent = some (0, 1#32) ∧
      lookup (-1) (sys [⟨9, 1#32⟩, ⟨-1, 2#32⟩] [] []).cache.ent = some (1, 2#32) := by decide

/-- The two ends of the store. -/
theorem witness_EnabledReadOfAbsentInstalls :
    start.cache.en = true ∧ lookup 0 start.cache.ent = none ∧ start.mem.InBounds 0 ∧ lookup 15 start.cache.ent = none ∧
      start.mem.InBounds 15 := by decide

theorem witness_FailingMissIsCounted :
    start.cache.en = true ∧ lookup 16 start.cache.ent = none ∧ ¬ start.mem.InBounds 16 ∧
      lookup (-1) start.cache.ent = none ∧ ¬ start.mem.InBounds (-1) := by decide

theorem witness_EnabledWriteInstallsAndMarksDirty : start.cache.en = true := by decide

theorem witness_DisabledAccessIsDirectAccess : (disabled start).cache.en = false := by decide

theorem witness_SecondReadOfAnAddressHits :
    1 ≤ start.cache.capacity ∧ start.cache.en = true ∧ start.mem.InBounds 15 ∧
      (sys [⟨-1, 2#32⟩] [] []).cache.resident (-1) := by decide

theorem witness_EvictionLosesDirtyData :
    (sys [⟨0, 10#32⟩, ⟨1, 20#32⟩] [0, 1] []).cache.en = true ∧ (sys [⟨0, 10#32⟩, ⟨1, 20#32⟩] [0, 1] []).cache.unique ∧
      (sys [⟨0, 10#32⟩, ⟨1, 20#32⟩] [0, 1] []).cache.ent = ⟨0, 10#32⟩ :: [⟨1, 20#32⟩] ∧
      (sys [⟨0, 10#32⟩, ⟨1, 20#32⟩] [0, 1] []).cache.ent.length = start.cache.capacity ∧
      ¬ (sys [⟨0, 10#32⟩, ⟨1, 20#32⟩] [0, 1] []).cache.resident 2 ∧ (0 : Int) ∈ [(0 : Int), 1] := by decide

/-- S8. -/
theorem witness_WritingOneTooManyEvictsTheFirst :
    start.cache.en = true ∧ start.cache.ent = [] ∧ [((1 : Int), 20#32), (2, 30#32)].length = start.cache.capacity ∧
      (([(0, 10#32), (1, 20#32), (2, 30#32)] : List (Int × Word)).map Prod.fst).Nodup := by decide

theorem witness_SyncWritesBackDirtyResidents :
    (sys [⟨1, 20#32⟩, ⟨2, 30#32⟩] [0, 1] []).mem.wf ∧ (sys [⟨1, 20#32⟩, ⟨2, 30#32⟩] [0, 1] []).cache.unique ∧
      (sys [⟨1, 20#32⟩, ⟨2, 30#32⟩] [0, 1] []).canSync := by decide

/-- With a dirty address out of bounds that is not resident. -/
theorem witness_FlushSyncsAndEmpties :
    (sys [⟨15, 20#32⟩, ⟨-1, 30#32⟩] [15, 16] []).mem.wf ∧ (sys [⟨15, 20#32⟩, ⟨-1, 30#32⟩] [15, 16] []).cache.unique ∧
      (sys [⟨15, 20#32⟩, ⟨-1, 30#32⟩] [15, 16] []).canSync := by decide

/-- V-C10: one entry written before the failing one. -/
theorem witness_FailingSyncStopsHalfDone :
    (sized 4 3 (sys [⟨1, 11#32⟩, ⟨9, 1#32⟩, ⟨2, 22#32⟩] [1, 2, 9] [])).mem.wf ∧
      (sys [⟨1, 11#32⟩, ⟨9, 1#32⟩, ⟨2, 22#32⟩] [1, 2, 9] []).cache.unique ∧
      (sys [⟨1, 11#32⟩, ⟨9, 1#32⟩, ⟨2, 22#32⟩] [1, 2, 9] []).cache.ent = [⟨1, 11#32⟩] ++ ⟨9, 1#32⟩ :: [⟨2, 22#32⟩] ∧
      (sized 4 3 start).mem.InBounds 1 ∧ (9 : Int) ∈ [(1 : Int), 2, 9] ∧ ¬ (sized 4 3 start).mem.InBounds 9 := by decide

theorem witness_WriteThenSyncReachesTheStore :
    (sys [⟨0, 1#32⟩] [0] []).mem.wf ∧ (sys [⟨0, 1#32⟩] [0] []).cache.unique ∧ 1 ≤ start.cache.capacity ∧
      (sys [⟨0, 1#32⟩] [0] []).cache.en = true ∧ (sys [⟨0, 1#32⟩] [0] []).canSync ∧ start.mem.InBounds 15 := by decide

theorem witness_SyncAndFlushIgnoreTheEnableBit :
    (Instr.cacheControl 2 = .syncWithMemory ∨ Instr.cacheControl 2 = .cacheFlush ∨
      Instr.cacheControl 2 = .cacheControlFlush ∨ Instr.cacheControl 2 = .cacheControl 2) := by decide

/-- S12. -/
theorem witness_OlderCachedValueWinsAfterBypass :
    (sys [⟨0, 10#32⟩] [0] []).mem.wf ∧ (sys [⟨0, 10#32⟩] [0] []).cache.unique ∧ (sys [⟨0, 10#32⟩] [0] []).canSync ∧
      (sys [⟨0, 10#32⟩] [0] []).mem.InBounds 0 ∧ lookup 0 (sys [⟨0, 10#32⟩] [0] []).cache.ent = some (0, 10#32) ∧
      (0 : Int) ∈ (sys [⟨0, 10#32⟩] [0] []).cache.dirty := by decide

theorem witness_DisableAndEnableWriteOnlyTheEnableBit :
    (Instr.cacheControl 0 = .cacheControlDisable ∨ Instr.cacheControl 0 = .cacheControl 0) ∧
      (Instr.cacheControlEnable = .cacheControlEnable ∨ Instr.cacheControlEnable = .cacheControl 1) := by decide

theorem witness_OtherControlCodesAreInvalid :
    ((3 : Int) ≠ 0 ∧ (3 : Int) ≠ 1 ∧ (3 : Int) ≠ 2) ∧ ((-1 : Int) ≠ 0 ∧ (-1 : Int) ≠ 1 ∧ (-1 : Int) ≠ 2) ∧
      (Instr.cacheControl 3 = .cacheControlInvalid 3 ∨ Instr.cacheControl 3 = .cacheControl 3) := by decide

theorem witness_MemReadAnswersTheStoredWord :
    (0 ≤ (15 : Int) ∧ (15 : Int) < start.mem.capacity) ∧ ¬ (0 ≤ (16 : Int) ∧ (16 : Int) < start.mem.capacity) ∧
      ¬ (0 ≤ (-1 : Int) ∧ (-1 : Int) < start.mem.capacity) := by decide

/-- The least and the greatest value, the values next to them, and the addresses next to the bounds. -/
theorem witness_MemWriteChecksAndStores :
    start.mem.wf ∧ (0 ≤ (15 : Int) ∧ (15 : Int) < start.mem.capacity) ∧
      (-2147483648 ≤ (-2147483648 : Int) ∧ (2147483647 : Int) ≤ 2147483647) ∧
      ((-2147483649 : Int) < -2147483648 ∨ (2147483647 : Int) < -2147483649) ∧
      ((2147483648 : Int) < -2147483648 ∨ (2147483647 : Int) < 2147483648) ∧
      ((16 : Int) < 0 ∨ start.mem.capacity ≤ (16 : Int)) ∧ ((-1 : Int) < 0 ∨ start.mem.capacity ≤ (-1 : Int)) := by
  decide

theorem witness_MemFlushAndRestore : start.mem.InBounds 0 ∧ start.mem.InBounds 15 := by decide

theorem witness_ReservedCommandsAnswerUnknownOperation :
    (Instr.reserved15, 0b1111#4) = (Instr.reserved15, 15#4) ∧ (Instr.reserved0, 0b0000#4) = (Instr.reserved0, 0#4) := by
  decide

theorem witness_RegisterZeroIsHardWired : (31 : Reg) ≠ 0 ∧ (1 : Reg) ≠ 31 := by decide

/-- The largest result that fits and the one after it; the least one and the one before it. -/
theorem witness_ArithmeticWritesTheExactResult :
    regValue 1 (reg 1 0x7FFFFFFF#32 start) + 0 = 2147483647 ∧ regValue 1 (reg 1 0x7FFFFFFF#32 start) + 1 = 2147483648 ∧
      regValue 1 (reg 1 0x80000000#32 start) - 0 = -2147483648 ∧
      regValue 1 (reg 1 0x80000000#32 start) + (-1) = -2147483649 := by decide

theorem witness_BneBranchesWhenDifferent :
    readReg 1 (reg 1 1#32 start) ≠ readReg 0 (reg 1 1#32 start) ∧ start.params.branchBase = .self ∧
      ({ start.params with branchBase := .next } : Params).branchBase = .next ∧ readReg 2 start = readReg 0 start := by
  decide

theorem witness_JalSavesTheReturnAddress :
    (-2147483648 ≤ (at' 2147483643 start).client.pc + start.params.instrSize ∧
      (at' 2147483643 start).client.pc + start.params.instrSize ≤ 2147483647) ∧
      2147483647 < (at' 2147483644 start).client.pc + start.params.instrSize := by decide

/-- In bounds, and resident out of bounds. -/
theorem witness_LoadWordLoadsWhatCacheReadAnswers :
    start.mem.InBounds (regValue 0 start + 15) ∧
      ((sys [⟨-1, 2#32⟩] [] []).cache.en = true ∧
        (sys [⟨-1, 2#32⟩] [] []).cache.resident (regValue 0 (sys [⟨-1, 2#32⟩] [] []) + (-1))) ∧
      lookup (regValue 0 start + (-1)) (sys [⟨-1, 2#32⟩] [] []).cache.ent = some (0, 2#32) ∧
      ¬ start.cache.resident (regValue 0 start + 15) := by decide

theorem witness_StoreWordStoresTheRegister :
    start.mem.wf ∧ start.cache.en = true ∧ (disabled start).cache.en = false ∧
      (disabled start).mem.InBounds (regValue 0 (disabled start) + 15) := by decide

theorem witness_OutOfBoundsLoadAndStoreHalt :
    ¬ start.mem.InBounds (regValue 0 start + 16) ∧ ¬ start.cache.resident (regValue 0 start + 16) ∧
      ¬ start.mem.InBounds (regValue 0 start + (-1)) ∧ (disabled start).cache.en = false := by decide

theorem witness_CacheInstructionControlsTheCache :
    (sys [⟨0, 12#32⟩] [0] []).mem.wf ∧ (sys [⟨0, 12#32⟩] [0] []).cache.unique ∧ (sys [⟨0, 12#32⟩] [0] []).canSync ∧
      ((3 : Int) ≠ 0 ∧ (3 : Int) ≠ 1 ∧ (3 : Int) ≠ 2) := by decide

end Sys2Proof.Tests
end

/-! PROOFS. The scope family: the invariant of R4, R18, R23 and R31 is met by every machine that is built, and kept by
every step. -/

namespace Sys2Proof.Machine

/-! ## The store and the cache together (R18, R23) -/

/-- The part of the invariant that speaks of the hierarchy: the store's contents (R23) and the cache (R18). -/
abbrev State.hierarchyWf (s : State) : Prop := s.mem.wf ∧ s.cache.wf

/-- R18 (iii) and (iv) after one more hit. -/
theorem countHit_counted {s : State} (h : s.cache.counted) (a : Int) : (countHit a s).cache.counted := by
  obtain ⟨htotal, hlat⟩ := h
  simp only [Cache.counted, countHit_cache_total, countHit_cache_hits, countHit_cache_misses, countHit_cache_lat,
    hitLatency, missLatency] at *
  omega

/-- R18 (iii) and (iv) after one more miss. -/
theorem countMiss_counted {s : State} (h : s.cache.counted) (a : Int) : (countMiss a s).cache.counted := by
  obtain ⟨htotal, hlat⟩ := h
  simp only [Cache.counted, countMiss_cache_total, countMiss_cache_hits, countMiss_cache_misses, countMiss_cache_lat,
    hitLatency, missLatency] at *
  omega

theorem countHit_cache_wf {s : State} (h : s.cache.wf) (a : Int) : (countHit a s).cache.wf := by
  obtain ⟨hunique, hbounded, hcounted, hdirty⟩ := h
  exact ⟨hunique, hbounded, countHit_counted hcounted a, hdirty⟩

theorem countMiss_cache_wf {s : State} (h : s.cache.wf) (a : Int) : (countMiss a s).cache.wf := by
  obtain ⟨hunique, hbounded, hcounted, hdirty⟩ := h
  exact ⟨hunique, hbounded, countMiss_counted hcounted a, hdirty⟩

/-- R103: an insertion keeps the tags unique and evicts down to the bound; it writes no counter and no dirty address. -/
theorem insertPair_cache_wf {s : State} (h : s.cache.wf) (a : Int) (v : Word) : (insertPair a v s).cache.wf := by
  obtain ⟨hunique, hbounded, hcounted, hdirty⟩ := h
  exact ⟨insert_unique hunique a v, insert_bounded hbounded a v, hcounted, hdirty⟩

theorem markDirty_cache_wf {s : State} (h : s.cache.wf) (a : Int) : (markDirty a s).cache.wf := by
  obtain ⟨hunique, hbounded, hcounted, hdirty⟩ := h
  exact ⟨hunique, hbounded, hcounted, pairwise_addrInsert hdirty⟩

/-- What a sync that succeeds leaves of the cache (R125). -/
theorem wf_clearedDirty {c : Cache} (h : c.wf) : ({ c with dirty := [] } : Cache).wf := by
  obtain ⟨hunique, hbounded, hcounted, -⟩ := h
  exact ⟨hunique, hbounded, hcounted, List.Pairwise.nil⟩

/-- What a flush that succeeds leaves of the cache (R127). -/
theorem wf_emptied {c : Cache} (h : c.wf) : ({ c with dirty := [], ent := [] } : Cache).wf := by
  obtain ⟨-, -, hcounted, -⟩ := h
  exact ⟨List.nodup_nil, Nat.zero_le _, hcounted, List.Pairwise.nil⟩

/-- The memory port does not reach the cache. -/
@[simp] theorem portRead_cache (a : Int) (s : State) : (portRead a s).state.cache = s.cache := by
  rcases portRead_cases a s with ⟨-, e⟩ | ⟨-, e⟩ <;> rw [e] <;> rfl

@[simp] theorem portWrite_cache (a : Int) (w : Word) (s : State) : (portWrite a w s).state.cache = s.cache := by
  rcases portWrite_cases a w s with ⟨-, e⟩ | ⟨-, e⟩ <;> rw [e] <;> rfl

@[simp] theorem memoryWrite_cache (a v : Int) (s : State) : (memoryWrite a v s).state.cache = s.cache := by
  rcases memoryWrite_cases a v s with ⟨-, -, e⟩ | ⟨-, -, e⟩ | ⟨-, e⟩ <;> rw [e] <;> rfl

/-! ## Every operation keeps the hierarchy well formed -/

/-- A hit and a miss are counted, a miss that reads installs (R101); a failing miss stays counted (D12). -/
theorem cacheRead_keeps_wf (a : Int) {s : State} (h : s.hierarchyWf) : (cacheRead a s).state.hierarchyWf := by
  obtain ⟨hm, hc⟩ := h
  refine ⟨by rw [(cacheRead_frame a s).1]; exact hm, ?_⟩
  rcases cacheRead_cases a s with ⟨-, e⟩ | ⟨n, v, -, -, e⟩ | ⟨-, -, -, e⟩ | ⟨-, -, -, e⟩ <;> rw [e]
  · rw [portRead_cache]; exact hc
  · exact countHit_cache_wf hc a
  · exact insertPair_cache_wf (s := logTxn _ (countMiss a s)) (countMiss_cache_wf hc a) a _
  · exact countMiss_cache_wf hc a

theorem cacheWrite_keeps_wf (a : Int) (w : Word) {s : State} (h : s.hierarchyWf) :
    (cacheWrite a w s).state.hierarchyWf := by
  obtain ⟨hm, hc⟩ := h
  rcases cacheWrite_cases a w s with ⟨-, e⟩ | ⟨-, e⟩ <;> rw [e]
  · exact ⟨portWrite_wf a w hm, by rw [portWrite_cache]; exact hc⟩
  · exact ⟨hm, markDirty_cache_wf (insertPair_cache_wf hc a w) a⟩

/-- A sync keeps the store canonical whether or not it gets to its end (R125, R126). -/
theorem syncWithMemory_mem_wf {s : State} (h : s.mem.wf) : (syncWithMemory s).state.mem.wf := by
  have hw := writeBack_wf s.cache.dirty s.cache.ent s h
  rcases syncWithMemory_cases s with ⟨t, ht, e⟩ | ⟨x, t, ht, e⟩ <;> rw [ht] at hw <;> rw [e] <;> exact hw

theorem flushCache_mem_wf {s : State} (h : s.mem.wf) : (flushCache s).state.mem.wf := by
  have hw := writeBack_wf s.cache.dirty s.cache.ent s h
  rcases flushCache_cases s with ⟨t, ht, e⟩ | ⟨x, t, ht, e⟩ <;> rw [ht] at hw <;> rw [e] <;> exact hw

theorem syncWithMemory_keeps_wf {s : State} (h : s.hierarchyWf) : (syncWithMemory s).state.hierarchyWf := by
  obtain ⟨hm, hc⟩ := h
  refine ⟨syncWithMemory_mem_wf hm, ?_⟩
  obtain ⟨-, -, e | e⟩ := syncWithMemory_frame s <;> rw [e]
  · exact hc
  · exact wf_clearedDirty hc

theorem flushCache_keeps_wf {s : State} (h : s.hierarchyWf) : (flushCache s).state.hierarchyWf := by
  obtain ⟨hm, hc⟩ := h
  refine ⟨flushCache_mem_wf hm, ?_⟩
  obtain ⟨-, -, e | e⟩ := flushCache_frame s <;> rw [e]
  · exact hc
  · exact wf_emptied hc

theorem cacheControl_keeps_wf (c : Int) {s : State} (h : s.hierarchyWf) : (cacheControl c s).state.hierarchyWf := by
  rcases cacheControl_cases c s with ⟨-, e⟩ | ⟨-, e⟩ | ⟨-, e⟩ | ⟨-, -, -, e⟩ <;> rw [e]
  · exact h
  · exact h
  · exact flushCache_keeps_wf h
  · exact h

theorem memoryWrite_keeps_wf (a v : Int) {s : State} (h : s.hierarchyWf) : (memoryWrite a v s).state.hierarchyWf := by
  obtain ⟨hm, hc⟩ := h
  exact ⟨memoryWrite_wf a v hm, by rw [memoryWrite_cache]; exact hc⟩

/-- Every instruction's operation keeps the store and the cache well formed. -/
theorem hierarchyAfter_keeps_wf (i : Instr) {s : State} (h : s.hierarchyWf) : (hierarchyAfter i s).hierarchyWf := by
  cases i with
  | cacheRead | lw => exact cacheRead_keeps_wf _ h
  | cacheWrite | sw => exact cacheWrite_keeps_wf _ _ h
  | cacheControl | cache => exact cacheControl_keeps_wf _ h
  | cacheControlFlush | cacheFlush => exact flushCache_keeps_wf h
  | syncWithMemory => exact syncWithMemory_keeps_wf h
  | memWrite => exact memoryWrite_keeps_wf _ _ h
  | memFlush => exact ⟨memoryFlush_wf h.1, h.2⟩
  | memResetToInitial => exact ⟨memoryResetToInitial_wf h.1, h.2⟩
  | _ => exact h

/-! ## The zero register (R31) -/

/-- R31: a register write never reaches register 0. -/
@[simp] theorem writeReg_regs_zero (i : Reg) (v : Word) (s : State) :
    (writeReg i v s).client.regs[0] = s.client.regs[0] := by
  unfold writeReg
  split_ifs with hi
  · rfl
  · have hne : (i : Nat) ≠ 0 := fun e => hi (Fin.ext e)
    simp [hne]

/-- A command on the port leaves the client as its operation does. -/
theorem issue_client {α : Type} {q : Request} {resp : α → Response} {op : State → Res α}
    (hop : ∀ u, (op u).state.client = u.client) (s : State) : (issue q resp op s).state.client = s.client := by
  have hs := hop (s.withOut {})
  rcases issue_cases q resp op s with ⟨a, t, h, e⟩ | ⟨x, t, h, e⟩ <;> rw [h] at hs <;> rw [e] <;> exact hs

/-- R187: a command of the host leaves the client as its operation does. -/
theorem hostCommand_client {α : Type} {q : Request} {resp : α → Response} {op : State → Res α} {s t : State}
    (h : hostCommand q resp op s = .next t) (hop : ∀ u, (op u).state.client = u.client) : t.client = s.client := by
  obtain rfl := Host.Outcome.next.inj h
  exact issue_client hop s

/-- A command of the client whose operation leaves the client alone writes no register (R142, R143, R145). -/
theorem clientCommand_regs {q : Request} {op : State → Res Unit} {s t : State}
    (h : clientCommand q op s = .next t) (hop : ∀ u, (op u).state.client = u.client) :
    t.client.regs = s.client.regs := by
  have hi := issue_client (q := q) (resp := respNone) hop s
  rcases clientCommand_cases q op s with ⟨u, hu, e⟩ | ⟨x, u, hu, e⟩
  all_goals
    rw [e] at h
    rw [hu] at hi
    obtain rfl := Host.Outcome.next.inj h
    exact (congrArg Client.regs hi : u.client.regs = s.client.regs)

theorem writeResult_regs_zero {rd : Reg} {v : Int} {s t : State} (h : writeResult rd v s = .next t) :
    t.client.regs[0] = s.client.regs[0] := by
  rcases writeResult_cases rd v s with ⟨-, e⟩ | ⟨-, e⟩ <;> rw [e] at h
  · obtain rfl := Host.Outcome.next.inj h
    simp
  · cases h

theorem execJal_regs_zero {target : Int} {s t : State} (h : execJal target s = .next t) :
    t.client.regs[0] = s.client.regs[0] := by
  unfold execJal at h
  split at h
  · obtain rfl := Host.Outcome.next.inj h
    simp
  · cases h

/-- R141: a load into register 0 drops the value, and one that fails writes no register. -/
theorem execLw_regs_zero {rt : Reg} {offset : Int} {rs : Reg} {s t : State} (h : execLw rt offset rs s = .next t) :
    t.client.regs[0] = s.client.regs[0] := by
  have hop (u : State) := (cacheRead_frame (effectiveAddress offset rs s) u).2.2.2.2
  have hi := issue_client (q := reqCacheRead (effectiveAddress offset rs s)) (resp := respData) hop s
  unfold execLw at h
  split at h <;> rename_i e <;> rw [e] at hi <;> obtain rfl := Host.Outcome.next.inj h
  · simpa using congrArg (fun c => c.regs[0]) hi
  · exact congrArg (fun c => c.regs[0]) hi

/-- R31: no instruction changes what register 0 holds. -/
theorem exec_regs_zero {i : Instr} {s t : State} (h : exec i s = .next t) :
    t.client.regs[0] = s.client.regs[0] := by
  have hop (u : State) := (hierarchyAfter_frame i u).2
  cases i with
  | add | addi | sub => exact writeResult_regs_zero h
  | slt =>
    obtain rfl := Host.Outcome.next.inj h
    simp
  | bne =>
    obtain rfl := Host.Outcome.next.inj h
    split <;> rfl
  | j | halt =>
    obtain rfl := Host.Outcome.next.inj h
    rfl
  | jal => exact execJal_regs_zero h
  | lw => exact execLw_regs_zero h
  | sw => exact congrArg (·[0]) (clientCommand_regs h fun u => (cacheWrite_frame _ _ u).2.1)
  | cache => exact congrArg (·[0]) (clientCommand_regs h fun u => (cacheControl_frame _ u).2)
  | memRead => exact congrArg (·.regs[0]) (hostCommand_client h fun u => by rw [memoryRead_state])
  | _ => exact congrArg (·.regs[0]) (hostCommand_client h hop)

/-! ## The step -/

/-- Where a next state of `step` comes from: an instruction that runs on the state with at most the move taken off, a
machine built again, a run that ends, or a client's turn that passes. -/
theorem step_next {s t : State} (h : step s = .next t) :
    ∃ ts, (∃ i, exec i (s.withTurns ts) = .next t) ∨ t = rebuild (s.withTurns ts) ∨
      (∃ r, t = haltRun r (idlePorts (s.withTurns ts))) ∨ t = idlePorts (s.withTurns ts) := by
  rcases step_cases h with ⟨i, u, hf, he⟩ | hf
  · obtain ⟨ts, rfl⟩ := fetch_run hf
    exact ⟨ts, .inl ⟨i, he⟩⟩
  · rcases fetch_done hf with ⟨ts, -, e⟩ | ⟨-, -, ts, r, e⟩ | ⟨-, ts, e⟩
    · exact ⟨ts, .inr (.inl e)⟩
    · exact ⟨ts, .inr (.inr (.inl ⟨r, e⟩))⟩
    · exact ⟨ts, .inr (.inr (.inr e))⟩

/-! ## The invariant -/

/-- The cache of a machine just built is empty, with its counters at 0 (R36). -/
theorem blank_cache_wf (p : Params) (m c : Nat) (prog : List Line) : (State.blank p m c prog).cache.wf :=
  ⟨List.nodup_nil, Nat.zero_le _, ⟨rfl, rfl⟩, List.Pairwise.nil⟩

/-- R31, R36: register 0 of a machine just built holds 0, whatever `REG_RESET` gives. -/
theorem blank_regs_zero (p : Params) (m c : Nat) (prog : List Line) :
    (State.blank p m c prog).client.regs[0] = 0#32 := by
  simp [State.blank]

theorem exec_keeps_inv {i : Instr} {s t : State} (hs : s.Inv) (h : exec i s = .next t) : t.Inv := by
  obtain ⟨hm, hc, hp, hz⟩ := hs
  obtain ⟨hmem, hcache⟩ := exec_hierarchy h
  obtain ⟨hm', hc'⟩ := hierarchyAfter_keeps_wf i (s := s.withOut {}) ⟨hm, hc⟩
  obtain ⟨hparams, -⟩ := exec_sameMachine h
  refine ⟨?_, ?_, ?_, (exec_regs_zero h).trans hz⟩
  · rw [hmem]; exact hm'
  · rw [hcache]; exact hc'
  · rw [hparams]; exact hp

/-- R200: building the machine again takes `M` from the snapshot, which is canonical too (R23). -/
theorem rebuild_keeps_inv {s : State} (hs : s.Inv) : (rebuild s).Inv := by
  obtain ⟨hm, -, hp, -⟩ := hs
  exact ⟨wf_restored hm, blank_cache_wf s.params s.mem.capacity s.cache.capacity s.prog, hp,
    blank_regs_zero s.params s.mem.capacity s.cache.capacity s.prog⟩

/-- Settles O16, by the origin of the next state: an instruction keeps each part of the invariant, a reset move builds
a machine that meets it, and the end of a run or a passing turn touches none of it. -/
theorem invariantKeptByEveryStep : Obligations.InvariantKeptByEveryStep := by
  intro s t hs h
  obtain ⟨ts, ⟨i, he⟩ | rfl | ⟨r, rfl⟩ | rfl⟩ := step_next h
  · exact exec_keeps_inv (s := s.withTurns ts) hs he
  · exact rebuild_keeps_inv (s := s.withTurns ts) hs
  · exact hs
  · exact hs

/-! ## Construction -/

/-- What a construction that succeeds is (R200): the image loaded into a blank machine, then the snapshot taken. -/
theorem construct_ok {p : Params} {m c : Nat} {image : List (Int × Int)} {prog : List Line} {s : State}
    (h : construct p m c image prog = .ok s) :
    ∃ t, loadPairs image (State.blank p m c prog) = .ok () t ∧ s = takeSnapshot t := by
  unfold construct at h
  split at h
  · exact ⟨_, ‹_›, (Except.ok.inj h).symm⟩
  · cases h

/-- R200 step (4): the snapshot of canonical contents is canonical. -/
theorem takeSnapshot_mem_wf {s : State} (h : s.mem.wf) : (takeSnapshot s).mem.wf := ⟨h.1, h.1⟩

/-- Settles O18: the load writes only words of the store and keeps it canonical, and everything else is as in the
blank machine. -/
theorem constructedMachineMeetsInvariant : Obligations.ConstructedMachineMeetsInvariant := by
  intro p m c image prog s hp h
  obtain ⟨t, hload, rfl⟩ := construct_ok h
  have hm : t.mem.wf := by
    have hwf := loadPairs_wf image (blank_mem_wf p m c prog)
    rw [hload] at hwf
    exact hwf
  obtain ⟨hframe, -, -⟩ := loadPairs_frame hload
  refine ⟨takeSnapshot_mem_wf hm, ?_⟩
  rw [hframe]
  exact ⟨blank_cache_wf p m c prog, hp, blank_regs_zero p m c prog⟩

end Sys2Proof.Machine

/-! PROOFS. The state family: which steps change the client, the fixed parts, the dirty set, the statistics and the
enable bit; what a reset and a construction leave; evictions; register 0 and JAL's return address. -/

namespace Sys2Proof.Machine

/-! ## Instructions of the command port and the client (R34, R187) -/

theorem decodeControl_isClient (c : Int) : (decodeControl c).isClient = false := by
  unfold decodeControl
  split_ifs <;> rfl

/-- R72, R73: no request decodes to an instruction of the client. -/
theorem decodeRequest_isClient {q : Request} {i : Instr} (h : decodeRequest q = .ok i) : i.isClient = false := by
  unfold decodeRequest at h
  split at h
  case h_3 =>
    split at h
    · obtain rfl := Except.ok.inj h; rfl
    · cases h
  case h_4 => obtain rfl := Except.ok.inj h; exact decodeControl_isClient _
  all_goals obtain rfl := Except.ok.inj h; rfl

/-- R187: no command of the host writes a register, `pc` or the end of the run. -/
theorem exec_host_client {i : Instr} {s t : State} (hi : i.isClient = false) (h : exec i s = .next t) :
    t.client = s.client := by
  have hop (u : State) := (hierarchyAfter_frame i u).2
  cases i with
  | add | addi | sub | slt | bne | j | jal | lw | sw | cache | halt => cases hi
  | memRead => exact hostCommand_client h fun u => by rw [memoryRead_state]
  | _ => exact hostCommand_client h hop

/-- R34: in a run that has ended only the host's requests are run. -/
theorem fetch_run_of_ended {s u : State} {i : Instr} (hended : ¬ s.running) (h : fetch s = .run i u) :
    i.isClient = false := by
  unfold fetch at h
  split at h
  · cases h
  · unfold fetchRequest at h
    split at h
    · rename_i hq
      obtain ⟨rfl, -⟩ := Fetched.run.inj h
      exact decodeRequest_isClient hq
    · cases h
  · split at h
    · exact absurd ‹_› hended
    · cases h
  · split at h
    · exact absurd ‹_› hended
    · cases h

/-- Settles O12, by the origin of the next state: a command of the host, which leaves the client alone, or a turn of
the client that passes. -/
theorem endedRunStaysEnded : Obligations.EndedRunStaysEnded := by
  refine ⟨fun s t hended hreset h => ?_, fun s r hr hturns => by simp only [step, fetch, hturns, hr]⟩
  rcases step_cases h with ⟨i, u, hf, he⟩ | hf
  · obtain ⟨ts, rfl⟩ := fetch_run hf
    exact exec_host_client (s := s.withTurns ts) (fetch_run_of_ended hended hf) he
  · rcases fetch_done hf with ⟨ts, hts, -⟩ | ⟨-, hrun, -⟩ | ⟨-, ts, rfl⟩
    · exact absurd (by rw [hts]; rfl) hreset
    · exact absurd hrun hended
    · rfl

/-! ## The fixed parts (R11, R12, R17, R35) -/

/-- Settles O19, by the origin of the next state: an instruction writes none of these parts, and building the machine
again takes each from the state before. -/
theorem fixedPartsNeverChange : Obligations.FixedPartsNeverChange := by
  intro s t h
  obtain ⟨ts, ⟨i, he⟩ | rfl | ⟨r, rfl⟩ | rfl⟩ := step_next h
  · obtain ⟨hparams, hprog, -, hcap, hsnap, hccap⟩ := exec_sameMachine he
    exact ⟨hsnap, hcap, hccap, hparams, hprog⟩
  all_goals exact ⟨rfl, rfl, rfl, rfl, rfl⟩

/-! ## What an instruction does to the cache (R14 to R16) -/

/-- The instructions that issue a `cache_read` (R101, R141). -/
abbrev issuesRead (i : Instr) : Prop := (∃ a, i = .cacheRead a) ∨ ∃ rt offset rs, i = .lw rt offset rs

/-- The instructions that issue a `cache_write` of address `a` (R102, R142). -/
abbrev issuesWrite (i : Instr) (s : State) (a : Int) : Prop :=
  (∃ w, i = .cacheWrite a w) ∨ ∃ rt offset rs, i = .sw rt offset rs ∧ effectiveAddress offset rs s = a

/-- The three forms of control code 0 (R121). -/
abbrev issuesDisable (i : Instr) : Prop := i = .cacheControlDisable ∨ i = .cacheControl 0 ∨ i = .cache 0

/-- The three forms of control code 1 (R122). -/
abbrev issuesEnable (i : Instr) : Prop := i = .cacheControlEnable ∨ i = .cacheControl 1 ∨ i = .cache 1

/-- The instructions that run a sync, on its own or as the first half of a flush (R125, R127, R123). -/
abbrev issuesSync (i : Instr) : Prop :=
  i = .syncWithMemory ∨ i = .cacheFlush ∨ i = .cacheControlFlush ∨ i = .cacheControl 2 ∨ i = .cache 2

/-- The caches that instruction `i` can leave when it runs on `s`. -/
inductive CacheMove (i : Instr) (s : State) : Cache → Prop where
  | same : CacheMove i s s.cache
  | hit (a : Int) (hi : issuesRead i) (hen : s.cache.en = true) : CacheMove i s (countHit a s).cache
  | missFailed (a : Int) (hi : issuesRead i) (hen : s.cache.en = true) : CacheMove i s (countMiss a s).cache
  | missInstalled (a : Int) (v : Word) (hi : issuesRead i) (hen : s.cache.en = true) :
      CacheMove i s (insertPair a v (countMiss a s)).cache
  | written (a : Int) (w : Word) (hi : issuesWrite i s a) (hen : s.cache.en = true) :
      CacheMove i s (markDirty a (insertPair a w s)).cache
  | disabled (hi : issuesDisable i) : CacheMove i s { s.cache with en := false }
  | enabled (hi : issuesEnable i) : CacheMove i s { s.cache with en := true }
  | synced (hi : issuesSync i) : CacheMove i s { s.cache with dirty := [] }
  | flushed (hi : issuesSync i) : CacheMove i s { s.cache with dirty := [], ent := [] }

theorem cacheRead_cacheMove {i : Instr} (hi : issuesRead i) (a : Int) (s : State) :
    CacheMove i s (cacheRead a s).state.cache := by
  rcases cacheRead_cases a s with ⟨-, e⟩ | ⟨n, v, hen, -, e⟩ | ⟨hen, -, -, e⟩ | ⟨hen, -, -, e⟩ <;> rw [e]
  · rw [portRead_cache]; exact .same
  · exact .hit a hi hen
  · exact .missInstalled a (s.mem.word a) hi hen
  · exact .missFailed a hi hen

theorem cacheWrite_cacheMove {i : Instr} {a : Int} {s : State} (hi : issuesWrite i s a) (w : Word) :
    CacheMove i s (cacheWrite a w s).state.cache := by
  rcases cacheWrite_cases a w s with ⟨-, e⟩ | ⟨hen, e⟩ <;> rw [e]
  · rw [portWrite_cache]; exact .same
  · exact .written a w hi hen

theorem syncWithMemory_cacheMove {i : Instr} (hi : issuesSync i) (s : State) :
    CacheMove i s (syncWithMemory s).state.cache := by
  obtain ⟨-, -, e | e⟩ := syncWithMemory_frame s <;> rw [e]
  · exact .same
  · exact .synced hi

theorem flushCache_cacheMove {i : Instr} (hi : issuesSync i) (s : State) :
    CacheMove i s (flushCache s).state.cache := by
  obtain ⟨-, -, e | e⟩ := flushCache_frame s <;> rw [e]
  · exact .same
  · exact .flushed hi

/-- R120: a control command moves the cache as its code says. -/
theorem cacheControl_cacheMove {i : Instr} {c : Int} (h0 : c = 0 → issuesDisable i) (h1 : c = 1 → issuesEnable i)
    (h2 : c = 2 → issuesSync i) (s : State) : CacheMove i s (cacheControl c s).state.cache := by
  rcases cacheControl_cases c s with ⟨hc, e⟩ | ⟨hc, e⟩ | ⟨hc, e⟩ | ⟨-, -, -, e⟩ <;> rw [e]
  · exact .disabled (h0 hc)
  · exact .enabled (h1 hc)
  · exact flushCache_cacheMove (h2 hc) s
  · exact .same

theorem hierarchyAfter_cacheMove (i : Instr) (s : State) : CacheMove i s (hierarchyAfter i s).cache := by
  cases i with
  | cacheRead a => exact cacheRead_cacheMove (.inl ⟨a, rfl⟩) a s
  | lw rt offset rs => exact cacheRead_cacheMove (.inr ⟨rt, offset, rs, rfl⟩) _ s
  | cacheWrite a w => exact cacheWrite_cacheMove (.inl ⟨w, rfl⟩) w
  | sw rt offset rs => exact cacheWrite_cacheMove (.inr ⟨rt, offset, rs, rfl, rfl⟩) _
  | cacheControl c | cache c =>
    exact cacheControl_cacheMove (by rintro rfl; simp [issuesDisable]) (by rintro rfl; simp [issuesEnable])
      (by rintro rfl; simp [issuesSync]) s
  | cacheControlDisable => exact .disabled (.inl rfl)
  | cacheControlEnable => exact .enabled (.inl rfl)
  | cacheControlFlush | cacheFlush => exact flushCache_cacheMove (by simp [issuesSync]) s
  | syncWithMemory => exact syncWithMemory_cacheMove (.inl rfl) s
  | memWrite a v =>
    have h : CacheMove (.memWrite a v) s (memoryWrite a v s).state.cache := by rw [memoryWrite_cache]; exact .same
    exact h
  | _ => exact .same

/-- What an instruction leaves of the cache; the recorded outputs are cleared before it runs. -/
theorem exec_cacheMove {i : Instr} {s t : State} (h : exec i s = .next t) : CacheMove i (s.withOut {}) t.cache := by
  rw [(exec_hierarchy h).2]
  exact hierarchyAfter_cacheMove i (s.withOut {})

/-- R14: `dirty` stays, gains the address of an enabled write, or is emptied by a sync. -/
theorem CacheMove.dirty_cases {i : Instr} {s : State} {c : Cache} (h : CacheMove i s c) :
    c.dirty = s.cache.dirty ∨
    (∃ a, s.cache.en = true ∧ issuesWrite i s a ∧ c.dirty = addrInsert a s.cache.dirty) ∨
    (issuesSync i ∧ c.dirty = []) := by
  cases h with
  | written a w hi hen => exact .inr (.inl ⟨a, hen, hi, rfl⟩)
  | synced hi | flushed hi => exact .inr (.inr ⟨hi, rfl⟩)
  | same | hit | missFailed | missInstalled | disabled | enabled => exact .inl rfl

/-- Settles O21, by the three things an instruction can do to the dirty set. -/
theorem dirtySetChangesOnlyByWriteAndSync : Obligations.DirtySetChangesOnlyByWriteAndSync := by
  intro i s t a h
  rcases (exec_cacheMove h).dirty_cases with e | ⟨b, hen, hi, e⟩ | ⟨hi, e⟩ <;> rw [e]
  · exact ⟨fun hin hout => absurd hin hout, fun hin hout => absurd hin hout⟩
  · refine ⟨fun hin hout => ?_, fun hin hout => absurd (mem_addrInsert.mpr (.inr hin)) hout⟩
    rcases mem_addrInsert.mp hin with rfl | hin
    · exact ⟨hen, hi⟩
    · exact absurd hin hout
  · exact ⟨fun hin => absurd hin List.not_mem_nil, fun _ _ => ⟨rfl, hi⟩⟩

/-- R16: the statistics of cache `d` are those of `c` and one hit of 1 unit. -/
abbrev countedHit (c d : Cache) : Prop :=
  d.total = c.total + 1 ∧ d.hits = c.hits + 1 ∧ d.misses = c.misses ∧ d.lat = c.lat + 1

/-- R16: the statistics of cache `d` are those of `c` and one miss of 10 units. -/
abbrev countedMiss (c d : Cache) : Prop :=
  d.total = c.total + 1 ∧ d.hits = c.hits ∧ d.misses = c.misses + 1 ∧ d.lat = c.lat + 10

/-- R16: the statistics stay, or an enabled read counts one hit or one miss. -/
theorem CacheMove.counters_cases {i : Instr} {s : State} {c : Cache} (h : CacheMove i s c) :
    countersSame s.cache c ∨
      (s.cache.en = true ∧ issuesRead i ∧ (countedHit s.cache c ∨ countedMiss s.cache c)) := by
  cases h with
  | hit a hi hen => exact .inr ⟨hen, hi, .inl ⟨rfl, rfl, rfl, rfl⟩⟩
  | missFailed a hi hen | missInstalled a v hi hen => exact .inr ⟨hen, hi, .inr ⟨rfl, rfl, rfl, rfl⟩⟩
  | same | written | disabled | enabled | synced | flushed => exact .inl ⟨rfl, rfl, rfl, rfl⟩

/-- Settles O22, by the three things an instruction can do to the statistics. -/
theorem statisticsMoveOnlyAtEnabledReads : Obligations.StatisticsMoveOnlyAtEnabledReads := by
  intro i s t h
  rcases (exec_cacheMove h).counters_cases with
    hsame | ⟨hen, hi, ⟨htotal, hhits, hmisses, hlat⟩ | ⟨htotal, hhits, hmisses, hlat⟩⟩
  · exact .inl hsame
  · exact .inr ⟨hen, hi, htotal, .inl ⟨hhits, hmisses, hlat⟩⟩
  · exact .inr ⟨hen, hi, htotal, .inr ⟨hhits, hmisses, hlat⟩⟩

/-- R15: the enable bit stays, or a control code writes it. -/
theorem CacheMove.en_cases {i : Instr} {s : State} {c : Cache} (h : CacheMove i s c) :
    c.en = s.cache.en ∨ (c.en = false ∧ issuesDisable i) ∨ (c.en = true ∧ issuesEnable i) := by
  cases h with
  | disabled hi => exact .inr (.inl ⟨rfl, hi⟩)
  | enabled hi => exact .inr (.inr ⟨rfl, hi⟩)
  | same | hit | missFailed | missInstalled | written | synced | flushed => exact .inl rfl

/-- Settles O23, by the three things an instruction can do to the enable bit. -/
theorem enableBitChangesOnlyByControl : Obligations.EnableBitChangesOnlyByControl := by
  intro i s t h hne
  exact (exec_cacheMove h).en_cases.resolve_left hne

/-! ## Evictions (R19, R104) -/

/-- A command of the host whose operation succeeds. -/
theorem hostCommand_of_ok {α : Type} {q : Request} {resp : α → Response} {op : State → Res α} {s t : State} {a : α}
    (h : op (s.withOut {}) = .ok a t) :
    hostCommand q resp op s = .next (t.withOut { t.out with issued := some q, resp := some (resp a) }) := by
  unfold hostCommand issue
  rw [h]; rfl

/-- R102: the next state of an enabled CACHE_WRITE, but for the request and the response recorded in it. -/
theorem exec_cacheWrite_enabled {s : State} (hen : s.cache.en = true) (a : Int) (w : Word) :
    ∃ t, exec (.cacheWrite a w) s = .next t ∧ t.mem = s.mem ∧ t.cache.ent = (s.cache.insert a w).ent ∧
      t.cache.dirty = addrInsert a s.cache.dirty ∧ t.out.events = evictEvents s.cache a w := by
  have hop : cacheWrite a w (s.withOut {}) = .ok () (markDirty a (insertPair a w (s.withOut {}))) := if_pos hen
  exact ⟨_, hostCommand_of_ok hop, rfl, rfl, rfl, rfl⟩

section FullCache

variable {c : Cache} {a : Int} {e : Entry} {rest : List Entry}
  (hent : c.ent = e :: rest) (hfull : c.ent.length = c.capacity) (habsent : ¬ c.resident a)
include hent hfull habsent

/-- R103: in a full cache the pair appended for a new address is one too many. -/
theorem appended_of_full (w : Word) :
    c.appended a w = e :: (rest ++ [⟨a, w⟩]) ∧ c.capacity < (c.appended a w).length := by
  have happ : c.appended a w = e :: (rest ++ [⟨a, w⟩]) := by
    rw [Cache.appended, removeTag_of_not_mem habsent, hent, List.cons_append]
  refine ⟨happ, ?_⟩
  rw [happ, ← hfull, hent]
  simp

/-- R103, R104: a new address takes the place of the oldest entry. -/
theorem insert_ent_of_full (w : Word) : (c.insert a w).ent = rest ++ [⟨a, w⟩] := by
  obtain ⟨happ, hlt⟩ := appended_of_full hent hfull habsent w
  calc (c.insert a w).ent = (c.appended a w).tail := if_pos hlt
    _ = rest ++ [⟨a, w⟩] := by rw [happ, List.tail_cons]

/-- R185: the eviction is reported with the oldest entry's tag. -/
theorem evictEvents_of_full (w : Word) :
    evictEvents c a w = [.evict e.tag (decide (e.tag ∈ c.dirty))] := by
  obtain ⟨happ, hlt⟩ := appended_of_full hent hfull habsent w
  have hvictim : c.victim a w = some e := by rw [Cache.victim, if_pos hlt, happ, List.head?_cons]
  rw [evictEvents, hvictim]

end FullCache

/-- Settles O35: the insertion drops the head of the entries and does not touch the dirty set, and unique tags leave
the victim's address in no other entry. -/
theorem evictionLosesDirtyData : Obligations.EvictionLosesDirtyData := by
  intro s a w e rest hen hunique hent hfull habsent
  obtain ⟨t, ht, hmem, hent', hdirty, hevents⟩ := exec_cacheWrite_enabled hen a w
  rw [insert_ent_of_full hent hfull habsent w] at hent'
  rw [evictEvents_of_full hent hfull habsent w] at hevents
  have hrest : e.tag ∉ rest.map Entry.tag := by
    rw [Cache.unique, hent, List.map_cons] at hunique
    exact (List.nodup_cons.mp hunique).1
  have hne : e.tag ≠ a := by
    rintro rfl
    exact habsent (by simp [Cache.resident, hent])
  refine ⟨t, ht, hent', hmem, fun hin => ⟨?_, ?_⟩, ?_⟩
  · rw [hdirty]; exact mem_addrInsert.mpr (.inr hin)
  · rw [Cache.resident, hent', List.map_append, List.mem_append]
    rintro (hin' | hin')
    · exact hrest hin'
    · exact hne (by simpa using hin')
  · rw [hevents]; exact List.mem_singleton.mpr rfl

/-! ## Reset and construction (R36, R200, R202) -/

/-- Settles O17: the state after reset is a blank machine with legal parameters. -/
theorem invariantHoldsAtReset : Obligations.InvariantHoldsAtReset :=
  ⟨reset_mem_wf, blank_cache_wf Params.default defaultMemCapacity defaultCacheCapacity [], by decide,
    blank_regs_zero Params.default defaultMemCapacity defaultCacheCapacity []⟩

theorem step_of_reset {s : State} {ts : List Turn} (h : s.turns = .reset :: ts) :
    step s = .next (rebuild (s.withTurns ts)) := by
  simp only [step, fetch, h]

/-- Settles O13: the step builds the machine again. -/
theorem resetMoveRebuildsTheMachine : Obligations.ResetMoveRebuildsTheMachine := by
  intro s ts h
  exact ⟨_, step_of_reset h, rfl, rfl, rfl, rfl, rfl, rfl, rfl, rfl, rfl, rfl, rfl, rfl, rfl, rfl, rfl, rfl, rfl⟩

/-- The value that the last pair of the image with address `a` gives; `old` where there is none. -/
def imageValue (image : List (Int × Int)) (a old : Int) : Int :=
  ((image.reverse.find? (fun q => decide (q.1 = a))).map Prod.snd).getD old

/-- A pair stands for the old value of its address until a later pair replaces it (D22). -/
theorem imageValue_cons (b v : Int) (rest : List (Int × Int)) (a old : Int) :
    imageValue ((b, v) :: rest) a old = imageValue rest a (if a = b then v else old) := by
  unfold imageValue
  rw [List.reverse_cons, List.find?_append]
  cases rest.reverse.find? (fun q => decide (q.1 = a)) with
  | some q => rfl
  | none =>
    by_cases h : a = b
    · simp [h]
    · simp [h, Ne.symm h]

/-- R202: after the load each word in bounds has the value the image gives it. -/
theorem loadPairs_word {a : Int} : ∀ {image : List (Int × Int)} {s t : State}, loadPairs image s = .ok () t →
    s.mem.wf → s.mem.InBounds a → (t.mem.word a).toInt = imageValue image a (s.mem.word a).toInt
  | [], s, t, h, _, _ => by cases h; rfl
  | (b, v) :: rest, s, t, h, hm, ha => by
    unfold loadPairs at h
    rcases memoryWrite_cases b v s with ⟨hb, hv, e⟩ | ⟨-, -, e⟩ | ⟨-, e⟩ <;> rw [e] at h
    · rw [Res.bind_ok] at h
      rw [loadPairs_word h (wf_setWord hm _ hb) ha, imageValue_cons, withMem_mem, word_setWord hm _ hb ha,
        apply_ite BitVec.toInt, toInt_ofInt_of_fits hv]
    · cases h
    · cases h

/-- Settles O14: the load writes only words of the store, and each word as the last pair of its address says; the rest
is the blank machine, and the snapshot is taken of the loaded store. -/
theorem constructedMachineHoldsItsImage : Obligations.ConstructedMachineHoldsItsImage := by
  intro p m c image prog s h
  obtain ⟨t, hload, rfl⟩ := construct_ok h
  obtain ⟨hframe, hcap, -⟩ := loadPairs_frame hload
  have hword : ∀ a : Int, t.mem.InBounds a → (t.mem.word a).toInt = imageValue image a 0 := fun a ha =>
    loadPairs_word hload (blank_mem_wf p m c prog) (by rw [Memory.InBounds, ← hcap]; exact ha)
  rw [hframe] at hword ⊢
  exact ⟨hcap, rfl, rfl, rfl, rfl, hword, rfl, rfl, rfl, rfl, rfl, rfl, rfl, rfl, rfl, rfl⟩

/-- A machine with a full cache of two dirty entries. -/
def fullDirty : State :=
  State.reset.withCache { State.reset.cache with ent := [⟨0, 10#32⟩, ⟨1, 20#32⟩], dirty := [0, 1] }

theorem fullDirty_inv : fullDirty.Inv := by
  obtain ⟨hm, -, hp, hz⟩ := invariantHoldsAtReset
  exact ⟨hm, by decide, hp, hz⟩

/-- Settles O37: a write of a third address evicts the oldest of two dirty entries. -/
theorem dirtySubsetIsNotInvariant : Obligations.DirtySubsetIsNotInvariant := by
  obtain ⟨t, ht, -, -, hstale, -⟩ := evictionLosesDirtyData fullDirty 2 30#32 ⟨0, 10#32⟩ [⟨1, 20#32⟩]
    rfl (by decide) rfl rfl (by decide)
  refine ⟨fullDirty, t, .cacheWrite 2 30#32, 0, fullDirty_inv, ?_, ht, hstale (by decide)⟩
  rintro b ⟨hdirty, hnot⟩
  exact hnot hdirty

/-! ## Registers (R31, R32, R157) -/

/-- R31: a write of register 0 is discarded. -/
@[simp] theorem writeReg_zero (v : Word) (s : State) : writeReg 0 v s = s := if_pos rfl

/-- R31, R141: a load into register 0 writes no register, whether or not it succeeds. -/
theorem execLw_zero_regs {offset : Int} {rs : Reg} {s t : State} (h : execLw 0 offset rs s = .next t) :
    t.client.regs = s.client.regs := by
  have hop (u : State) := (cacheRead_frame (effectiveAddress offset rs s) u).2.2.2.2
  have hi := issue_client (q := reqCacheRead (effectiveAddress offset rs s)) (resp := respData) hop s
  unfold execLw at h
  split at h <;> rename_i e <;> rw [e] at hi <;> obtain rfl := Host.Outcome.next.inj h
  · rw [advance_client_regs, writeReg_zero]; exact congrArg Client.regs hi
  · rw [takeError_client_regs]; exact congrArg Client.regs hi

/-- Settles O51, by the register read after a register write and by the load into register 0. -/
theorem registerZeroIsHardWired : Obligations.RegisterZeroIsHardWired := by
  refine fun s v => ⟨readReg_zero s, writeReg_zero v s, fun offset rs => ?_, fun rd hrd => ⟨?_, fun r hr => ?_⟩⟩
  · obtain ⟨t, ht, -⟩ := execLw_next 0 offset rs s
    exact ⟨t, ht, execLw_zero_regs ht⟩
  · rw [readReg_writeReg, if_neg hrd, if_pos rfl]
  · rw [readReg_writeReg, if_neg hr]
    split_ifs with h0
    · rw [h0, readReg_zero]
    · rfl

/-- What JAL does (R157, R162). -/
theorem execJal_cases (target : Int) (s : State) :
    (fitsWord (s.client.pc + s.params.instrSize) ∧
      execJal target s = .next (setPc (jumpTarget target s)
        (writeReg s.params.raIndex (BitVec.ofInt 32 (s.client.pc + s.params.instrSize)) (idlePorts s)))) ∨
    (¬ fitsWord (s.client.pc + s.params.instrSize) ∧
      execJal target s = .refused (.resultNotWord (s.client.pc + s.params.instrSize))) := by
  unfold execJal
  by_cases h : fitsWord (s.client.pc + s.params.instrSize)
  · exact .inl ⟨h, by rw [wordOfInt?_eq_some.mpr ⟨h, rfl⟩]⟩
  · exact .inr ⟨h, by rw [wordOfInt?_eq_none.mpr h]⟩

@[simp] theorem idlePorts_out (s : State) : (idlePorts s).out = {} := rfl

/-- A write of a register and of `pc` with the ports idle is seen in that register alone. -/
theorem regWritten_setPc_writeReg (rd : Reg) (v : Word) (pc : Int) (s : State) :
    regWritten rd v s (setPc pc (writeReg rd v (idlePorts s))) := by
  intro r
  rw [readReg_congr (setPc_client_regs _ pc), readReg_writeReg, readReg_congr (t := idlePorts s) (s := s) rfl]

/-- Settles O56, by whether the return address fits a word. -/
theorem jalSavesTheReturnAddress : Obligations.JalSavesTheReturnAddress := by
  intro s target
  rcases execJal_cases target s with ⟨hfits, e⟩ | ⟨hfits, e⟩
  · refine ⟨fun _ _ => ⟨_, _, e, toInt_ofInt_of_fits hfits, regWritten_setPc_writeReg _ _ _ s, rfl, ?_⟩, fun hout => ?_⟩
    · simp [sameMachine]
    · obtain ⟨hlo, hhi⟩ := hfits
      omega
  · exact ⟨fun hlo hhi => absurd ⟨hlo, hhi⟩ hfits, fun _ => e⟩

end Sys2Proof.Machine

/-! PROOFS. The memory family: the causes of R52 for a word of the store to change; construction that fails; the direct
commands of R42 to R45; the sync, and a write that it brings to the store; the host's move. -/

namespace Sys2Proof.Machine

/-! ## What each operation does to one word of the store (R52) -/

/-- R43: a direct write leaves every word but that of its address. -/
theorem memoryWrite_word_other {a b : Int} {s : State} (hm : s.mem.wf) (ha : s.mem.InBounds a) (hba : b ≠ a)
    (v : Int) : (memoryWrite b v s).state.mem.word a = s.mem.word a := by
  rcases memoryWrite_cases b v s with ⟨hb, -, e⟩ | ⟨-, -, e⟩ | ⟨-, e⟩ <;> rw [e]
  · exact (word_setWord hm _ hb ha).trans (if_neg hba.symm)
  · rfl
  · rfl

/-- A write on the memory port is a direct write, logged (R48). -/
theorem portWrite_mem (a : Int) (w : Word) (s : State) :
    (portWrite a w s).state.mem = (memoryWrite a w.toInt s).state.mem := by
  unfold portWrite
  cases memoryWrite a w.toInt s <;> rfl

/-- R102: a `cache_write` leaves every word, but for that of its address where the cache is disabled. -/
theorem cacheWrite_word_other {a b : Int} {s : State} (hm : s.mem.wf) (ha : s.mem.InBounds a)
    (h : ¬ (s.cache.en = false ∧ b = a)) (w : Word) : (cacheWrite b w s).state.mem.word a = s.mem.word a := by
  rcases cacheWrite_cases b w s with ⟨hen, e⟩ | ⟨-, e⟩ <;> rw [e]
  · rw [portWrite_mem]
    exact memoryWrite_word_other hm ha (fun hba => h ⟨hen, hba⟩) _
  · rfl

/-- A sync writes the store in its loop alone (R125). -/
theorem syncWithMemory_mem (s : State) :
    (syncWithMemory s).state.mem = (writeBack s.cache.dirty s.cache.ent s).state.mem := by
  rcases syncWithMemory_cases s with ⟨t, ht, e⟩ | ⟨x, t, ht, e⟩
  · rw [e, ht]; rfl
  · rw [e, ht]

/-- A flush leaves the store as its sync does (R127, R128). -/
theorem flushCache_mem (s : State) : (flushCache s).state.mem = (syncWithMemory s).state.mem := by
  unfold flushCache
  cases syncWithMemory s <;> rfl

/-- R125, R126: a sync, failing or not, leaves every word but those of dirty resident addresses. -/
theorem syncWithMemory_word_other {a : Int} {s : State} (hm : s.mem.wf) (ha : s.mem.InBounds a)
    (h : ¬ s.cache.toWriteBack a) : (syncWithMemory s).state.mem.word a = s.mem.word a := by
  rw [syncWithMemory_mem]
  refine writeBack_word_other s.cache.dirty a s.cache.ent s hm ha fun e he hd hea => h ?_
  exact ⟨hea ▸ hd, List.mem_map.mpr ⟨e, he, hea⟩⟩

theorem flushCache_word_other {a : Int} {s : State} (hm : s.mem.wf) (ha : s.mem.InBounds a)
    (h : ¬ s.cache.toWriteBack a) : (flushCache s).state.mem.word a = s.mem.word a := by
  rw [flushCache_mem]
  exact syncWithMemory_word_other hm ha h

/-- R120: of the control codes only 2 reaches the store. -/
theorem cacheControl_word_other {a c : Int} {s : State} (hm : s.mem.wf) (ha : s.mem.InBounds a)
    (h : ¬ (c = 2 ∧ s.cache.toWriteBack a)) : (cacheControl c s).state.mem.word a = s.mem.word a := by
  rcases cacheControl_cases c s with ⟨-, e⟩ | ⟨-, e⟩ | ⟨hc, e⟩ | ⟨-, -, -, e⟩ <;> rw [e]
  · rfl
  · rfl
  · exact flushCache_word_other hm ha fun hwb => h ⟨hc, hwb⟩
  · rfl

/-- R52: an instruction that is no listed cause for the word at `a` leaves it. -/
theorem hierarchyAfter_word_other {i : Instr} {s : State} {a : Int} (hm : s.mem.wf) (ha : s.mem.InBounds a)
    (h : ¬ storeCause i s a) : (hierarchyAfter i s).mem.word a = s.mem.word a := by
  cases i with
  | cacheRead | lw => exact congrArg (·.word a) (cacheRead_frame _ s).1
  | cacheWrite | sw => exact cacheWrite_word_other hm ha h _
  | cacheControl | cache => exact cacheControl_word_other hm ha h
  | cacheControlFlush | cacheFlush => exact flushCache_word_other hm ha h
  | syncWithMemory => exact syncWithMemory_word_other hm ha h
  | memWrite => exact memoryWrite_word_other hm ha h _
  | memFlush | memResetToInitial => exact absurd trivial h
  | _ => rfl

/-- Settles O20: the store of the next state is the one the instruction's operation leaves, and an operation that is no
listed cause for the word leaves it. -/
theorem storeChangesOnlyByListedCauses : Obligations.StoreChangesOnlyByListedCauses := by
  intro i s t a hm h ha hne
  by_contra hcause
  apply hne
  rw [(exec_hierarchy h).1]
  exact hierarchyAfter_word_other (s := s.withOut {}) hm ha hcause

/-! ## Construction that fails (R43, R202, R203) -/

theorem loadPairs_of_outOfBounds {a : Int} {s : State} (ha : ¬ s.mem.InBounds a) (v : Int) (rest : List (Int × Int)) :
    loadPairs ((a, v) :: rest) s = .raise (.outOfBounds a) s := by
  rw [loadPairs, memoryWrite, if_neg ha, Res.bind_raise]

theorem loadPairs_of_outOfRange {a v : Int} {s : State} (ha : s.mem.InBounds a) (hv : ¬ fitsWord v)
    (rest : List (Int × Int)) : loadPairs ((a, v) :: rest) s = .raise (.valueOutOfRange v) s := by
  rw [loadPairs, memoryWrite, if_pos ha, wordOfInt?_eq_none.mpr hv, Res.bind_raise]

section Construction

variable {p : Params} {m c : Nat} {image : List (Int × Int)} {prog : List Line} {t : State}

/-- R200: a load that succeeds is followed by the snapshot. -/
theorem construct_of_ok (h : loadPairs image (State.blank p m c prog) = .ok () t) :
    construct p m c image prog = .ok (takeSnapshot t) := by
  rw [construct, h]

/-- R203: the error of the load is the error of the construction. -/
theorem construct_of_raise {e : Error} (h : loadPairs image (State.blank p m c prog) = .raise e t) :
    construct p m c image prog = .error e := by
  rw [construct, h]

end Construction

/-- Settles O15: the pairs before the bad one are loaded and leave the capacity, so the load goes on with the bad pair,
whose write raises. -/
theorem constructionFailsAtFirstBadPair : Obligations.ConstructionFailsAtFirstBadPair := by
  intro p m c good prog hgood
  have hload (rest : List (Int × Int)) := loadPairs_append rest good (State.blank p m c prog) fun q hq =>
    have ⟨hlo, hhi, hvlo, hvhi⟩ := hgood q hq
    ⟨⟨hlo, hhi⟩, hvlo, hvhi⟩
  refine ⟨?_, fun a v rest => ?_⟩
  · obtain ⟨t, ht, -⟩ := hload []
    rw [List.append_nil] at ht
    exact ⟨_, construct_of_ok ht⟩
  · obtain ⟨t, ht, hcap⟩ := hload ((a, v) :: rest)
    have hbounds : t.mem.InBounds a ↔ 0 ≤ a ∧ a < m := by rw [Memory.InBounds, hcap]; rfl
    refine ⟨fun hout => construct_of_raise (ht.trans (loadPairs_of_outOfBounds ?_ v rest)),
      fun hlo hhi hv => construct_of_raise (ht.trans (loadPairs_of_outOfRange (hbounds.mpr ⟨hlo, hhi⟩) ?_ rest))⟩
    · rw [hbounds]; omega
    · simp only [fitsWord]; omega

/-! ## The host's direct commands (R42 to R45) -/

/-- A command of the host whose operation fails (R187). -/
theorem hostCommand_of_raise {α : Type} {q : Request} {resp : α → Response} {op : State → Res α} {s t : State}
    {e : Error} (h : op (s.withOut {}) = .raise e t) :
    hostCommand q resp op s = .next (t.withOut
      { t.out with issued := some q, resp := some (respError e), events := t.out.events ++ [.error e] }) := by
  rw [hostCommand, issue, h, Res.state_raise]

/-- Settles O47, by whether the address is in bounds. -/
theorem memReadAnswersTheStoredWord : Obligations.MemReadAnswersTheStoredWord := by
  intro s a
  refine ⟨fun ha => ?_, fun ha => ?_⟩
  · exact hostCommand_of_ok (op := memoryRead a) (t := s.withOut {}) (if_pos ha)
  · exact hostCommand_of_raise (op := memoryRead a) (t := s.withOut {}) (if_neg ha)

/-- Settles O48, by the three things a direct write can do. -/
theorem memWriteChecksAndStores : Obligations.MemWriteChecksAndStores := by
  intro s a v hm
  rcases memoryWrite_cases a v (s.withOut {}) with ⟨ha, hv, e⟩ | ⟨ha, hv, e⟩ | ⟨ha, e⟩
  · refine ⟨_, hostCommand_of_ok e, rfl, rfl, ⟨rfl, rfl, rfl, rfl, rfl, rfl⟩,
      fun _ _ _ _ => ⟨?_, fun b hb hba => ?_, rfl⟩, fun _ _ hout => ?_, fun hout => ?_⟩
    · exact (congrArg BitVec.toInt ((word_setWord hm _ ha ha).trans (if_pos rfl))).trans (toInt_ofInt_of_fits hv)
    · exact (word_setWord hm _ ha hb).trans (if_neg hba)
    · simp only [fitsWord] at hv; omega
    · simp only [Memory.InBounds, withOut_mem] at ha; omega
  · refine ⟨_, hostCommand_of_raise e, rfl, rfl, ⟨rfl, rfl, rfl, rfl, rfl, rfl⟩, fun _ _ hlo hhi => ?_,
      fun _ _ _ => ⟨rfl, rfl⟩, fun hout => ?_⟩
    · exact absurd ⟨hlo, hhi⟩ hv
    · simp only [Memory.InBounds, withOut_mem] at ha; omega
  · refine ⟨_, hostCommand_of_raise e, rfl, rfl, ⟨rfl, rfl, rfl, rfl, rfl, rfl⟩, fun hlo hhi => ?_, fun hlo hhi => ?_,
      fun _ => ⟨rfl, rfl⟩⟩
    all_goals exact absurd ⟨hlo, hhi⟩ ha

/-- R11: a store that lists no word reads 0 everywhere. -/
theorem word_of_cells_nil {m : Memory} (h : m.cells = []) (a : Int) : m.word a = 0#32 := by
  rw [Memory.word, h, cellRead]

/-- Settles O49: both operations succeed in every state and replace the words alone. -/
theorem memFlushAndRestore : Obligations.MemFlushAndRestore := by
  intro s
  refine ⟨⟨_, hostCommand_of_ok (op := memoryFlush) rfl, fun a _ => word_of_cells_nil rfl a, ?_⟩,
    ⟨_, hostCommand_of_ok (op := memoryResetToInitial) rfl, fun a _ => rfl, ?_⟩⟩
  all_goals exact ⟨rfl, rfl, ⟨rfl, rfl, rfl, rfl, rfl, rfl⟩, rfl⟩

/-! ## The sync (R125) -/

/-- R125: the loop of a sync that cannot fail writes each dirty resident entry, oldest first, and nothing else. -/
theorem writeBack_of_canSync {s : State} (hm : s.mem.wf) (hu : s.cache.unique) (hs : s.canSync) :
    ∃ t, writeBack s.cache.dirty s.cache.ent s = .ok () t ∧ syncedWords s t ∧ t.cache = s.cache ∧
      t.client = s.client ∧ sameMachine s t ∧
      t.out.txns = s.out.txns ++ (s.cache.ent.filter (fun e => decide (e.tag ∈ s.cache.dirty))).map
        (fun e => .write e.tag e.data true) := by
  obtain ⟨t, ht, htxns⟩ := writeBack_ok s.cache.dirty s.cache.ent s hs
  have hwritten := writeBack_word_written s.cache.dirty s.cache.ent s hm hu hs
  have hother (a : Int) (ha : s.mem.InBounds a) (h : ¬ s.cache.toWriteBack a) := syncWithMemory_word_other hm ha h
  obtain ⟨hcache, hclient, hsame, -⟩ := writeBack_frame s.cache.dirty s.cache.ent s
  simp only [syncWithMemory_mem] at hother
  rw [ht] at hwritten hother hcache hclient hsame
  exact ⟨t, ht, ⟨hwritten, hother⟩, hcache, hclient, hsame, htxns⟩

/-- R125: a sync is its loop, and the dirty set cleared where the loop succeeds. -/
theorem syncWithMemory_of_ok {s t : State} (h : writeBack s.cache.dirty s.cache.ent s = .ok () t) :
    syncWithMemory s = .ok () (t.withCache { t.cache with dirty := [] }) := by
  rw [syncWithMemory, h, Res.bind_ok]

/-- Settles O38: where each write-back is in bounds the loop succeeds, and the sync then clears the dirty set. -/
theorem syncWritesBackDirtyResidents : Obligations.SyncWritesBackDirtyResidents := by
  intro s hm hu hs
  obtain ⟨t, ht, hwords, hcache, hclient, ⟨hparams, hprog, hturns, hcap, hsnap, hccap⟩, htxns⟩ :=
    writeBack_of_canSync (s := s.withOut {}) hm hu hs
  refine ⟨_, hostCommand_of_ok (syncWithMemory_of_ok ht), hwords, ?_, hclient,
    ⟨hparams, hprog, hturns, hcap, hsnap, hccap⟩, rfl, htxns⟩
  rw [withOut_cache, withCache_cache, hcache, withOut_cache]

/-! ## A write, a sync and a direct read (R102, R111, R125) -/

/-- R103: a cache with room for one entry holds the pair just inserted, whatever was evicted. -/
theorem mem_insert_self {c : Cache} (h : 1 ≤ c.capacity) (a : Int) (v : Word) : ⟨a, v⟩ ∈ (c.insert a v).ent := by
  show ⟨a, v⟩ ∈ if c.capacity < (c.appended a v).length then (c.appended a v).tail else c.appended a v
  unfold Cache.appended
  split_ifs with hfull
  · have hne : removeTag a c.ent ≠ [] := by
      intro hnil
      simp [hnil] at hfull
      omega
    rw [List.tail_append_of_ne_nil hne]
    simp
  · simp

/-- R103: an insertion brings in no entry but the pair inserted. -/
theorem mem_of_mem_insert {c : Cache} {a : Int} {v : Word} {e : Entry} (h : e ∈ (c.insert a v).ent) :
    e = ⟨a, v⟩ ∨ (e ∈ c.ent ∧ e.tag ≠ a) := by
  have happ : e ∈ c.appended a v := by
    unfold Cache.insert at h
    dsimp only at h
    split_ifs at h
    · exact List.mem_of_mem_tail h
    · exact h
  rcases List.mem_append.mp happ with hold | hnew
  · exact .inr (mem_removeTag.mp hold)
  · exact .inl (List.mem_singleton.mp hnew)

/-- An enabled write in bounds leaves a sync that cannot fail (C6): every other dirty entry was there before. -/
theorem canSync_of_written {s t : State} {a : Int} {w : Word} (hs : s.canSync) (ha : s.mem.InBounds a)
    (hmem : t.mem = s.mem) (hent : t.cache.ent = (s.cache.insert a w).ent)
    (hdirty : t.cache.dirty = addrInsert a s.cache.dirty) : t.canSync := by
  intro e he hd
  rw [hmem]
  rw [hent] at he
  rw [hdirty] at hd
  rcases mem_of_mem_insert he with rfl | ⟨hold, hne⟩
  · exact ha
  · exact hs e hold ((mem_addrInsert.mp hd).resolve_left hne)

theorem runAll_cons {i : Instr} {is : List Instr} {s t : State} (h : exec i s = .next t) :
    runAll (i :: is) s = runAll is t := by
  rw [runAll, h]

/-- Settles O41: the write installs the entry and marks it dirty, the sync copies it to the store (O38), and the read
answers the stored word (O47). -/
theorem writeThenSyncReachesTheStore : Obligations.WriteThenSyncReachesTheStore := by
  intro s a w hm hunique hcap hen hs ha
  obtain ⟨t, ht, hmem, hent, hdirty, -⟩ := exec_cacheWrite_enabled hen a w
  have hunique' : t.cache.unique := by rw [Cache.unique, hent]; exact insert_unique hunique a w
  obtain ⟨u, hu, ⟨hwritten, -⟩, hcache, -, ⟨-, -, -, hucap, -⟩, -⟩ :=
    syncWritesBackDirtyResidents t (hmem ▸ hm) hunique' (canSync_of_written hs ha hmem hent hdirty)
  have hword : u.mem.word a = w :=
    hwritten ⟨a, w⟩ (hent ▸ mem_insert_self hcap a w) (hdirty ▸ mem_addrInsert.mpr (.inl rfl))
  have hread := (memReadAnswersTheStoredWord u a).1 (by rw [hucap, hmem]; exact ha)
  refine ⟨_, by rw [runAll_cons ht, runAll_cons hu, runAll_cons hread]; rfl, by rw [← hword], ?_⟩
  rw [hcache]
  exact List.not_mem_nil

/-! ## The host's move (R50, R206) -/

theorem decodeRequest_of_decode {q : Request} {i : Instr} (h : decode (.request q) = .ok i) :
    decodeRequest q = .ok i := by
  unfold decode at h
  dsimp only at h
  split at h
  · rename_i j hj
    rw [hj, Except.ok.inj h]
  · cases h

/-- Settles O7: the fetch takes the host's request and decodes it. -/
theorem stepRunsHostCommand : Obligations.StepRunsHostCommand := by
  intro s q ts i hturns hdecode
  have hfetch : fetch s = .run i (s.withTurns ts) := by
    simp only [fetch, hturns, fetchRequest, decodeRequest_of_decode hdecode]
  rw [step, hfetch]

end Sys2Proof.Machine

/-! PROOFS. The encoding family: the round trip of the encoder and the decoder, and what the decoder gives; what the rows
of the command port and the client's commands do whatever their operands; what a step refuses. -/

namespace Sys2Proof.Machine

/-! ## Lines: the encoder's tokens are read back (R80 to R84) -/

theorem comma_not_mem_showReg (r : Reg) : ',' ∉ showReg r := not_mem_showReg (by decide) (by decide) r

theorem comma_not_mem_showInt (v : Int) : ',' ∉ showInt v := not_mem_showInt (by decide) (by decide) v

/-- An encoded line decodes to the instruction that its operand tokens make. -/
theorem decode_joinTokens {o : Opcode} {args : List Token} {i : Instr} (hcomma : ∀ u ∈ args, ',' ∉ u)
    (hargs : decodeOperands o args = some i) : decode (.line (joinTokens o.token args)) = .ok i := by
  simp only [decode, decodeLine_joinTokens hcomma hargs]

section OperandShapes

variable {o : Opcode}

theorem decode_line_regs3 {k : Reg → Reg → Reg → Instr} (ho : decodeOperands o = decodeRegs3 k) (x y z : Reg) :
    decode (.line (joinTokens o.token [showReg x, showReg y, showReg z])) = .ok (k x y z) := by
  refine decode_joinTokens (by simp [comma_not_mem_showReg]) ?_
  simp only [ho, decodeRegs3, parseReg_showReg]

theorem decode_line_regs2Int {k : Reg → Reg → Int → Instr} (ho : decodeOperands o = decodeRegs2Int k) (x y : Reg)
    (n : Int) : decode (.line (joinTokens o.token [showReg x, showReg y, showInt n])) = .ok (k x y n) := by
  refine decode_joinTokens (by simp [comma_not_mem_showReg, comma_not_mem_showInt]) ?_
  simp only [ho, decodeRegs2Int, parseReg_showReg, parseInt_showInt]

theorem decode_line_int {k : Int → Instr} (ho : decodeOperands o = decodeInt k) (n : Int) :
    decode (.line (joinTokens o.token [showInt n])) = .ok (k n) := by
  refine decode_joinTokens (by simp [comma_not_mem_showInt]) ?_
  simp only [ho, decodeInt, parseInt_showInt]

theorem decode_line_regMem {k : Reg → Int → Reg → Instr} (ho : decodeOperands o = decodeRegMem k) (x : Reg) (n : Int)
    (y : Reg) : decode (.line (joinTokens o.token [showReg x, showMem n y])) = .ok (k x n y) := by
  refine decode_joinTokens (by simp [comma_not_mem_showReg, comma_not_mem_showMem]) ?_
  simp only [ho, decodeRegMem, parseReg_showReg, parseMem_showMem]

end OperandShapes

/-! ## Requests (R72 to R74) -/

/-- R102: the value of a word is in the range of `wdata`. -/
theorem decode_reqCacheWrite (a : Int) (w : Word) : decode (.request (reqCacheWrite a w)) = .ok (.cacheWrite a w) := by
  have hreq : decodeRequest (reqCacheWrite a w) = .ok (.cacheWrite a w) := by
    simp [decodeRequest, reqCacheWrite, wordOfInt?_toInt]
  simp only [decode, hreq]

/-- R74: any other code than 0, 1 and 2 selects the row of the invalid codes. -/
theorem decodeControl_of_invalid {c : Int} (h : ¬ isControlCode c) : decodeControl c = .cacheControlInvalid c := by
  unfold decodeControl
  split_ifs with h0 h1 h2
  · exact absurd (.inl h0) h
  · exact absurd (.inr (.inl h1)) h
  · exact absurd (.inr (.inr h2)) h
  · rfl

theorem decode_reqCacheControl (c : Int) : decode (.request (reqCacheControl c)) = .ok (decodeControl c) := rfl

/-- Settles O1: a line by the shape of its operands, whose tokens are each read back; a request by its `cmd` value, where
only CACHE_WRITE looks at a range and only CACHE_CONTROL is decoded further. -/
theorem encodeThenDecodeGivesCanonical : Obligations.EncodeThenDecodeGivesCanonical := by
  intro i hwf
  cases i with
  | add x y z | sub x y z | slt x y z => exact decode_line_regs3 rfl x y z
  | addi x y n | bne x y n => exact decode_line_regs2Int rfl x y n
  | j n | jal n | cache n => exact decode_line_int rfl n
  | lw x n y | sw x n y => exact decode_line_regMem rfl x n y
  | halt => exact decode_joinTokens (o := .halt) (args := []) (by simp) rfl
  | cacheWrite a w => exact decode_reqCacheWrite a w
  | cacheControlInvalid c =>
    have hc : ¬ isControlCode c := by simpa [Instr.wellFormed] using hwf
    exact (decode_reqCacheControl c).trans (congrArg Except.ok (decodeControl_of_invalid hc))
  | _ => rfl

/-! ## What a line decodes to (R85, R86, R178) -/

section Line

variable {l : Line} {op : Token} {args : List Token} {o : Opcode}

theorem decodeLine_of_unknown (hs : splitTokens l = op :: args) (ho : ∀ o : Opcode, o.token ≠ op) :
    decodeLine l = .error (.unknownOperation op) := by
  simp only [decodeLine, hs, opcodeOf_eq_none.mpr ho]

theorem decodeLine_of_operands {i : Instr} (hs : splitTokens l = o.token :: args)
    (hargs : decodeOperands o args = some i) : decodeLine l = .ok i := by
  simp only [decodeLine, hs, opcodeOf_token, hargs]

theorem decodeLine_of_malformed (hs : splitTokens l = o.token :: args) (hargs : decodeOperands o args = none) :
    decodeLine l = .error (.malformedInstruction l) := by
  simp only [decodeLine, hs, opcodeOf_token, hargs]

end Line

/-- Settles O5, by the two checks in their order: the opcode's token, then the operands. -/
theorem lineErrorsAreClassified : Obligations.LineErrorsAreClassified := by
  intro l op args hs
  refine ⟨decodeLine_of_unknown hs, ?_⟩
  rintro o rfl
  exact ⟨fun i => decodeLine_of_operands hs, decodeLine_of_malformed hs⟩

/-- A line that decodes holds an opcode's token and operands that make the instruction. -/
theorem decodeLine_ok {l : Line} {i : Instr} (h : decodeLine l = .ok i) :
    ∃ o args, splitTokens l = o.token :: args ∧ decodeOperands o args = some i := by
  unfold decodeLine at h
  split at h
  · cases h
  · rename_i op args hs
    split at h
    · cases h
    · rename_i o ho
      split at h
      · rename_i j hargs
        obtain rfl := Except.ok.inj h
        exact ⟨o, args, opcodeOf_eq_some ho ▸ hs, hargs⟩
      · cases h

theorem decodeLine_of_decode {l : Line} {i : Instr} (h : decode (.line l) = .ok i) : decodeLine l = .ok i := by
  unfold decode at h
  dsimp only at h
  split at h
  · rename_i j hj
    rw [hj, Except.ok.inj h]
  · cases h

/-! ## What the decoder gives (R72 to R74, R80) -/

theorem decodeRegs3_some {k : Reg → Reg → Reg → Instr} {args : List Token} {i : Instr}
    (h : decodeRegs3 k args = some i) : ∃ x y z, i = k x y z := by
  unfold decodeRegs3 at h
  split at h
  · split at h
    · exact ⟨_, _, _, (Option.some.inj h).symm⟩
    · cases h
  · cases h

theorem decodeRegs2Int_some {k : Reg → Reg → Int → Instr} {args : List Token} {i : Instr}
    (h : decodeRegs2Int k args = some i) : ∃ x y n, i = k x y n := by
  unfold decodeRegs2Int at h
  split at h
  · split at h
    · exact ⟨_, _, _, (Option.some.inj h).symm⟩
    · cases h
  · cases h

theorem decodeInt_some {k : Int → Instr} {args : List Token} {i : Instr} (h : decodeInt k args = some i) :
    ∃ n, i = k n := by
  unfold decodeInt at h
  split at h
  · split at h
    · exact ⟨_, (Option.some.inj h).symm⟩
    · cases h
  · cases h

theorem decodeRegMem_some {k : Reg → Int → Reg → Instr} {args : List Token} {i : Instr}
    (h : decodeRegMem k args = some i) : ∃ x n y, i = k x n y := by
  unfold decodeRegMem at h
  split at h
  · split at h
    · exact ⟨_, _, _, (Option.some.inj h).symm⟩
    · cases h
  · cases h

/-- R80, R81: the operands of an opcode make an instruction of the client. -/
theorem decodeOperands_isClient {o : Opcode} {args : List Token} {i : Instr} (h : decodeOperands o args = some i) :
    i.isClient = true := by
  cases o with
  | add | sub | slt => obtain ⟨x, y, z, rfl⟩ := decodeRegs3_some h; rfl
  | addi | bne => obtain ⟨x, y, n, rfl⟩ := decodeRegs2Int_some h; rfl
  | j | jal | cache => obtain ⟨n, rfl⟩ := decodeInt_some h; rfl
  | lw | sw => obtain ⟨x, n, y, rfl⟩ := decodeRegMem_some h; rfl
  | halt =>
    unfold decodeOperands at h
    dsimp only at h
    split at h
    · obtain rfl := Option.some.inj h; rfl
    · cases h

/-- An instruction that the decoder can give: well formed, and not the CACHE_CONTROL row (R74). -/
abbrev isDecoded (i : Instr) : Prop := i.wellFormed = true ∧ i.canonical = i

/-- R74 is about the command port only. -/
theorem isDecoded_of_isClient {i : Instr} (h : i.isClient = true) : isDecoded i := by
  cases i with
  | add | addi | sub | slt | bne | j | jal | lw | sw | cache | halt => exact ⟨rfl, rfl⟩
  | _ => cases h

theorem decodeControl_isDecoded (c : Int) : isDecoded (decodeControl c) := by
  by_cases hc : isControlCode c
  · rcases hc with rfl | rfl | rfl <;> exact ⟨rfl, rfl⟩
  · rw [decodeControl_of_invalid hc]
    exact ⟨by simpa [Instr.wellFormed] using hc, rfl⟩

/-- R72, R73: every row that a request decodes to is canonical; only CACHE_CONTROL has sub-rows. -/
theorem decodeRequest_isDecoded {q : Request} {i : Instr} (h : decodeRequest q = .ok i) : isDecoded i := by
  unfold decodeRequest at h
  split at h
  case h_3 =>
    split at h
    · obtain rfl := Except.ok.inj h; exact ⟨rfl, rfl⟩
    · cases h
  case h_4 => obtain rfl := Except.ok.inj h; exact decodeControl_isDecoded _
  all_goals obtain rfl := Except.ok.inj h; exact ⟨rfl, rfl⟩

/-- Settles O2, by the raw form: a request gives a row of the command port, a line an instruction of the client. -/
theorem decodedInstrIsWellFormed : Obligations.DecodedInstrIsWellFormed := by
  intro raw i h
  cases raw with
  | request q =>
    have hq := decodeRequest_of_decode h
    obtain ⟨hwf, hcanonical⟩ := decodeRequest_isDecoded hq
    simp [hwf, hcanonical, decodeRequest_isClient hq]
  | line l =>
    obtain ⟨o, args, -, hargs⟩ := decodeLine_ok (decodeLine_of_decode h)
    have hclient := decodeOperands_isClient hargs
    obtain ⟨hwf, hcanonical⟩ := isDecoded_of_isClient hclient
    exact ⟨hwf, hcanonical, fun _ => ⟨l, rfl⟩, fun _ => hclient⟩

/-- Settles O4, by evaluation of the decoder on each of the samples. -/
theorem sampleWordsDecode : Obligations.SampleWordsDecode := by
  refine ⟨?request1, ?request3, ?request9, ?request7, ?add, ?lw, ?halt⟩
  all_goals rfl

/-! ## Binary address tokens (R88) -/

/-- R88: the digits `0` and `1` are read onto what was read before them. -/
theorem parseBits_map (bits : List Bool) (acc : Nat) :
    parseBits acc (bits.map (fun b => if b then '1' else '0')) =
      some (bits.foldl (fun n b => n * 2 + b.toNat) acc) := by
  induction bits generalizing acc with
  | nil => rfl
  | cons b bs ih => cases b <;> simp [parseBits, ih]

/-- A token that reads as binary is an address in base 2, before any other reading (D21). -/
theorem parseAddrToken_of_bits {t : Token} {n : Nat} (hne : t ≠ []) (h : parseBits 0 t = some n) :
    parseAddrToken t = some (n : Int) := by
  cases t with
  | nil => exact absurd rfl hne
  | cons c cs => simp only [parseAddrToken, h]

/-- Settles O6, by induction on the digits (`parseBits_map`). -/
theorem binaryAddressTokenIsBase2 : Obligations.BinaryAddressTokenIsBase2 := by
  intro bits hne
  exact parseAddrToken_of_bits (by simpa using hne) (parseBits_map bits 0)

/-! ## What a command leaves on the command port (R70, R71) -/

/-- R70: the request is recorded, whether or not its operation succeeds. -/
theorem issue_issued {α : Type} (q : Request) (resp : α → Response) (op : State → Res α) (s : State) :
    (issue q resp op s).state.out.issued = some q := by
  rcases issue_cases q resp op s with ⟨a, t, -, e⟩ | ⟨x, t, -, e⟩ <;> rw [e] <;> rfl

/-- R71, R187: there is one response, whether or not the operation succeeds. -/
theorem issue_resp {α : Type} (q : Request) (resp : α → Response) (op : State → Res α) (s : State) :
    ∃ r, (issue q resp op s).state.out.resp = some r := by
  rcases issue_cases q resp op s with ⟨a, t, -, e⟩ | ⟨x, t, -, e⟩ <;> rw [e] <;> exact ⟨_, rfl⟩

theorem clientCommand_issued {q : Request} {op : State → Res Unit} {s t : State}
    (h : clientCommand q op s = .next t) : t.out.issued = some q := by
  have hi := issue_issued q respNone op s
  rcases clientCommand_cases q op s with ⟨u, hu, e⟩ | ⟨x, u, hu, e⟩
  all_goals
    rw [hu] at hi
    rw [e] at h
    obtain rfl := Host.Outcome.next.inj h
    exact hi

theorem execLw_issued {rt rs : Reg} {offset : Int} {s t : State} (h : execLw rt offset rs s = .next t) :
    t.out.issued = some (reqCacheRead (effectiveAddress offset rs s)) := by
  have hi := issue_issued (reqCacheRead (effectiveAddress offset rs s)) respData
    (cacheRead (effectiveAddress offset rs s)) s
  unfold execLw at h
  split at h <;> rename_i e <;> rw [e] at hi <;> obtain rfl := Host.Outcome.next.inj h
  · rw [advance_out, writeReg_out]; exact hi
  · exact hi

/-- R89: no command was issued, and the store and the cache are untouched. -/
abbrev idleStep (s t : State) : Prop := t.out = {} ∧ t.mem = s.mem ∧ t.cache = s.cache

theorem writeResult_idle {rd : Reg} {v : Int} {s t : State} (h : writeResult rd v s = .next t) : idleStep s t := by
  rcases writeResult_cases rd v s with ⟨-, e⟩ | ⟨-, e⟩ <;> rw [e] at h
  · obtain rfl := Host.Outcome.next.inj h
    simp [idleStep]
  · cases h

theorem execJal_idle {target : Int} {s t : State} (h : execJal target s = .next t) : idleStep s t := by
  rcases execJal_cases target s with ⟨-, e⟩ | ⟨-, e⟩ <;> rw [e] at h
  · obtain rfl := Host.Outcome.next.inj h
    simp [idleStep]
  · cases h

/-- Settles O24: LW, SW and CACHE are commands of the port, and every other instruction of the client starts by leaving
the ports idle and then writes the client alone. -/
theorem clientIssuesOnlyItsThreeCommands : Obligations.ClientIssuesOnlyItsThreeCommands := by
  intro i s t hi h
  cases i with
  | lw => exact execLw_issued h
  | sw | cache => exact clientCommand_issued h
  | add | addi | sub => exact writeResult_idle h
  | jal => exact execJal_idle h
  | slt =>
    obtain rfl := Host.Outcome.next.inj h
    simp
  | bne =>
    have ht := Host.Outcome.next.inj h
    split at ht <;> obtain rfl := ht <;> exact ⟨rfl, rfl, rfl⟩
  | j | halt =>
    obtain rfl := Host.Outcome.next.inj h
    exact ⟨rfl, rfl, rfl⟩
  | _ => cases hi

/-- R71: a command of the host always completes, with a response. -/
theorem hostCommand_answers {α : Type} (q : Request) (resp : α → Response) (op : State → Res α) (s : State) :
    ∃ t, hostCommand q resp op s = .next t ∧ ∃ r, t.out.resp = some r := ⟨_, rfl, issue_resp q resp op s⟩

theorem exec_host_answers {i : Instr} (hi : i.isClient = false) (s : State) :
    ∃ t, exec i s = .next t ∧ ∃ r, t.out.resp = some r := by
  cases i with
  | add | addi | sub | slt | bne | j | jal | lw | sw | cache | halt => cases hi
  | _ => exact hostCommand_answers _ _ _ s

/-- Settles O27: the command completes (R71), does not write the client (R187), and no instruction writes the rest. -/
theorem hostCommandsNeverTouchTheClient : Obligations.HostCommandsNeverTouchTheClient := by
  intro i s hi
  obtain ⟨t, ht, hresp⟩ := exec_host_answers hi s
  exact ⟨t, ht, exec_host_client hi ht, exec_sameMachine ht, hresp⟩

/-! ## The rows of the command port (R73, R120, R129) -/

/-- R124: what CACHE_CONTROL does with any other code. -/
theorem cacheControl_of_invalid {c : Int} (h : ¬ isControlCode c) : cacheControl c = invalidCode c := by
  funext s
  rcases cacheControl_cases c s with ⟨h0, -⟩ | ⟨h1, -⟩ | ⟨h2, -⟩ | ⟨-, -, -, e⟩
  · exact absurd (.inl h0) h
  · exact absurd (.inr (.inl h1)) h
  · exact absurd (.inr (.inr h2)) h
  · exact e

/-- R74, R120: the CACHE_CONTROL row and the row its code selects issue the same request with the same operation. -/
theorem exec_decodeControl (c : Int) (s : State) : exec (decodeControl c) s = execCacheControl c s := by
  by_cases hc : isControlCode c
  · rcases hc with rfl | rfl | rfl <;> rfl
  · rw [decodeControl_of_invalid hc, execCacheControl, cacheControl_of_invalid hc]
    rfl

/-- Settles O3: every row but CACHE_CONTROL is its own canonical row. -/
theorem controlRowRunsAsItsSubRow : Obligations.ControlRowRunsAsItsSubRow := by
  intro i s
  cases i with
  | cacheControl c => exact exec_decodeControl c s
  | _ => rfl

/-- Settles O46: the operation answers the record of the cache and leaves the state. -/
theorem statusReportsByItsFormulas : Obligations.StatusReportsByItsFormulas := by
  intro s
  exact ⟨_, statusOf s.cache, hostCommand_of_ok (op := readStatus) rfl, rfl, rfl, rfl, rfl, rfl,
    ⟨rfl, rfl, rfl, rfl, rfl, rfl⟩, rfl, rfl, rfl, percent_eq _ _, rfl, rfl, rfl, rfl, percent_eq _ _, ratio_eq _ _⟩

/-- R73: what the command of a reserved `cmd` value leaves. -/
theorem hostCommand_unknownCommand (c : BitVec 4) (s : State) :
    hostCommand (reqReserved c) respNone (unknownCommand c) s = .next { s with
      out :=
        { issued := some { cmd := c }, resp := some (respError (.unknownOperation (.cmd c))), txns := []
          events := [.error (.unknownOperation (.cmd c))] } } :=
  hostCommand_of_raise (op := unknownCommand c) rfl

/-- Settles O50: each of the six rows is the same command with its own `cmd` value. -/
theorem reservedCommandsAnswerUnknownOperation : Obligations.ReservedCommandsAnswerUnknownOperation := by
  intro s i c h
  have answer (hexec : exec i s = hostCommand (reqReserved c) respNone (unknownCommand c) s) :=
    hexec.trans (hostCommand_unknownCommand c s)
  rcases h with h | h | h | h | h | h
  all_goals
    obtain ⟨rfl, rfl⟩ := Prod.mk.inj h
    exact ⟨rfl, _, rfl, rfl, answer rfl⟩

/-! ## What a step refuses (R70, R102, R150) -/

/-- R150: a turn of the client in a run that has not ended is its fetch. -/
theorem fetch_of_client {s : State} (hturns : s.turns = [] ∨ ∃ ts, s.turns = .client :: ts) (hrun : s.running) :
    fetch s = fetchClient (s.withTurns s.turns.tail) := by
  rcases hturns with h | ⟨ts, h⟩
  · have hs : s.withTurns [] = s := by rw [← h]; rfl
    simp only [fetch, h, hrun, List.tail_nil, hs]
  · simp only [fetch, h, hrun, List.tail_cons]

theorem fetchClient_of_pcUndefined {s : State} (h : ¬ pcDefined s) :
    fetchClient s = .refuse (.pcUndefined s.client.pc) := if_neg h

/-- R70, R102: a CACHE_WRITE request whose value is no `Word` is refused. -/
theorem fetchRequest_of_wideWrite {v : Int} (h : ¬ fitsWord v) (a c : Int) (s : State) :
    fetchRequest { cmd := 0b0010#4, addr := a, wdata := v, code := c } s = .refuse (.wdataNotWord v) := by
  simp [fetchRequest, decodeRequest, wordOfInt?_eq_none.mpr h]

/-- Settles O11: in both cases the fetch refuses, before any instruction runs. -/
theorem undefinedPcAndWideWriteAreRefused : Obligations.UndefinedPcAndWideWriteAreRefused := by
  refine ⟨fun s hturns hrun hpc => ?_, fun s ts a v c hturns hv => ?_⟩
  · have hundefined : ¬ pcDefined (s.withTurns s.turns.tail) := by
      rintro ⟨hlo, hmod⟩
      exact hpc.elim (not_lt.mpr hlo) (· hmod)
    rw [step, fetch_of_client hturns hrun, fetchClient_of_pcUndefined hundefined]
    rfl
  · have hwide : ¬ fitsWord v := by simp only [fitsWord]; omega
    have hfetch : fetch s = .refuse (.wdataNotWord v) := by
      simp only [fetch, hturns, fetchRequest_of_wideWrite hwide]
    rw [step, hfetch]

end Sys2Proof.Machine

/-! PROOFS. The cache access family: what the lookup finds; the hit, the miss and the bypass of a read; the write and
the bypass of a write; a run of writes of distinct addresses; LW and SW, which issue the two commands. -/

namespace Sys2Proof.Machine

/-! ## The lookup (R100) -/

/-- R100: what stands at a position is found there, because unique tags leave no other entry with the tag. -/
theorem lookup_of_getElem? {l : List Entry} {a : Int} {n : Nat} {v : Word} (hunique : (l.map Entry.tag).Nodup)
    (h : l[n]? = some ⟨a, v⟩) : lookup a l = some (n, v) := by
  cases hl : lookup a l with
  | none => exact absurd (List.mem_map.mpr ⟨_, List.mem_of_getElem? h, rfl⟩) (lookup_eq_none.mp hl)
  | some p =>
    obtain ⟨m, d⟩ := p
    have hm : l[m]? = some ⟨a, d⟩ := getElem?_of_lookup hl
    have hlt : m < (l.map Entry.tag).length := by
      rw [List.length_map]; exact (List.getElem?_eq_some_iff.mp hm).1
    obtain rfl : m = n := (List.getElem?_inj hlt hunique).mp (by rw [List.getElem?_map, List.getElem?_map, hm, h]; rfl)
    obtain ⟨-, rfl⟩ := Entry.mk.inj (Option.some.inj (hm.symm.trans h))
    rfl

/-- Settles O28: what is found stands at its position in every cache, and the converse is where unique tags are used. -/
theorem lookupFindsTheOneEntry : Obligations.LookupFindsTheOneEntry := fun _ hunique _ =>
  ⟨fun _ _ => ⟨getElem?_of_lookup, lookup_of_getElem? hunique⟩, lookup_eq_none⟩

/-- R103: a cache with room for one entry finds the value just inserted, with or without unique tags: the insertion took
every other entry with the tag out. -/
theorem lookup_insert_self {c : Cache} (h : 1 ≤ c.capacity) (a : Int) (v : Word) :
    ∃ n, lookup a (c.insert a v).ent = some (n, v) := by
  cases hl : lookup a (c.insert a v).ent with
  | none => exact absurd (List.mem_map.mpr ⟨_, mem_insert_self h a v, rfl⟩) (lookup_eq_none.mp hl)
  | some p =>
    obtain ⟨n, d⟩ := p
    rcases mem_of_mem_insert (List.mem_of_getElem? (getElem?_of_lookup hl)) with he | ⟨-, hne⟩
    · obtain ⟨-, rfl⟩ := Entry.mk.inj he
      exact ⟨n, rfl⟩
    · exact absurd rfl hne

/-! ## The four ways of a read and the two of a write (R101, R102) -/

theorem portRead_of_inBounds {s : State} {a : Int} (ha : s.mem.InBounds a) :
    portRead a s = .ok (s.mem.word a) (logTxn (.read a (some (s.mem.word a))) s) :=
  (portRead_cases a s).elim And.right fun ⟨hn, _⟩ => absurd ha hn

theorem portRead_of_outOfBounds {s : State} {a : Int} (ha : ¬ s.mem.InBounds a) :
    portRead a s = .raise (.outOfBounds a) (logTxn (.read a none) s) :=
  (portRead_cases a s).elim (fun ⟨hb, _⟩ => absurd hb ha) And.right

theorem portWrite_of_inBounds {s : State} {a : Int} (ha : s.mem.InBounds a) (w : Word) :
    portWrite a w s = .ok () (logTxn (.write a w true) (s.withMem (s.mem.setWord a w))) :=
  (portWrite_cases a w s).elim And.right fun ⟨hn, _⟩ => absurd ha hn

theorem portWrite_of_outOfBounds {s : State} {a : Int} (ha : ¬ s.mem.InBounds a) (w : Word) :
    portWrite a w s = .raise (.outOfBounds a) (logTxn (.write a w false) s) :=
  (portWrite_cases a w s).elim (fun ⟨hb, _⟩ => absurd hb ha) And.right

/-- R43: a direct write of a word's value cannot leave the range. -/
theorem memoryWrite_toInt_of_inBounds {s : State} {a : Int} (ha : s.mem.InBounds a) (w : Word) :
    memoryWrite a w.toInt s = .ok () (s.withMem (s.mem.setWord a w)) := by
  rw [memoryWrite, if_pos ha, wordOfInt?_toInt]

theorem cacheRead_of_disabled {s : State} (hen : s.cache.en = false) (a : Int) : cacheRead a s = portRead a s :=
  if_neg (by simp [hen])

theorem cacheRead_of_hit {s : State} {a : Int} {n : Nat} {v : Word} (hen : s.cache.en = true)
    (hl : lookup a s.cache.ent = some (n, v)) : cacheRead a s = .ok v (countHit a s) := by
  rw [cacheRead, if_pos hen, hl]

/-- R101, R103: a miss is counted, read on the port and installed. -/
theorem cacheRead_of_miss {s : State} {a : Int} (hen : s.cache.en = true) (hl : lookup a s.cache.ent = none)
    (ha : s.mem.InBounds a) : cacheRead a s = .ok (s.mem.word a)
      (insertPair a (s.mem.word a) (logTxn (.read a (some (s.mem.word a))) (countMiss a s))) := by
  rw [cacheRead, if_pos hen, hl, portRead_of_inBounds (s := countMiss a s) ha]
  rfl

/-- R219: a miss whose read fails stays counted and installs nothing. -/
theorem cacheRead_of_failing_miss {s : State} {a : Int} (hen : s.cache.en = true) (hl : lookup a s.cache.ent = none)
    (ha : ¬ s.mem.InBounds a) :
    cacheRead a s = .raise (.outOfBounds a) (logTxn (.read a none) (countMiss a s)) := by
  rw [cacheRead, if_pos hen, hl, portRead_of_outOfBounds (s := countMiss a s) ha]
  rfl

theorem cacheWrite_of_disabled {s : State} (hen : s.cache.en = false) (a : Int) (w : Word) :
    cacheWrite a w s = portWrite a w s := if_neg (by simp [hen])

theorem cacheWrite_of_enabled {s : State} (hen : s.cache.en = true) (a : Int) (w : Word) :
    cacheWrite a w s = .ok () (markDirty a (insertPair a w s)) := if_pos hen

/-! ## The host's reads and writes with the cache enabled (R101 to R107) -/

/-- Settles O29: a hit is its counters. -/
theorem enabledReadOfResidentHits : Obligations.EnabledReadOfResidentHits := fun s a n v hen hl =>
  hostCommand_of_ok (op := cacheRead a) (cacheRead_of_hit (s := s.withOut {}) (n := n) (v := v) hen hl)

/-- Settles O30: a miss that reads is its counters, the read on the port and the install. -/
theorem enabledReadOfAbsentInstalls : Obligations.EnabledReadOfAbsentInstalls := fun s a hen hl ha =>
  hostCommand_of_ok (op := cacheRead a) (cacheRead_of_miss (s := s.withOut {}) hen hl ha)

/-- Settles O31: a miss that cannot read is its counters and the failed read. -/
theorem failingMissIsCounted : Obligations.FailingMissIsCounted := fun s a hen hl ha =>
  hostCommand_of_raise (op := cacheRead a) (cacheRead_of_failing_miss (s := s.withOut {}) hen hl ha)

/-- Settles O32: the write installs the pair and marks its address, whatever the address. -/
theorem enabledWriteInstallsAndMarksDirty : Obligations.EnabledWriteInstallsAndMarksDirty := fun s a w hen =>
  ⟨_, hostCommand_of_ok (op := cacheWrite a w) (cacheWrite_of_enabled (s := s.withOut {}) hen a w), insert_ent _ a w,
    fun _ => mem_addrInsert, ⟨rfl, rfl, rfl, rfl⟩, rfl, rfl, rfl, ⟨rfl, rfl, rfl, rfl, rfl, rfl⟩, rfl, rfl⟩

/-- R111: an enabled read that completes leaves the value it answered in the cache, found there by its address. -/
theorem exec_cacheRead_leaves_resident {s : State} {a : Int} (hcap : 1 ≤ s.cache.capacity) (hen : s.cache.en = true)
    (ha : s.mem.InBounds a ∨ s.cache.resident a) :
    ∃ t n v, exec (.cacheRead a) s = .next t ∧ t.out.resp = some { rdata := some v } ∧ t.cache.en = true ∧
      lookup a t.cache.ent = some (n, v) := by
  cases hl : lookup a s.cache.ent with
  | some p => exact ⟨_, p.1, p.2, enabledReadOfResidentHits s a p.1 p.2 hen hl, rfl, hen, hl⟩
  | none =>
    have hbounds : s.mem.InBounds a := ha.resolve_right (lookup_eq_none.mp hl)
    obtain ⟨n, hn⟩ := lookup_insert_self hcap a (s.mem.word a)
    exact ⟨_, n, s.mem.word a, enabledReadOfAbsentInstalls s a hen hl hbounds, rfl, hen, hn⟩

/-- Settles O34: the first read leaves its value in the cache, so the second is a hit (O29). -/
theorem secondReadOfAnAddressHits : Obligations.SecondReadOfAnAddressHits := by
  intro s a hcap hen ha
  obtain ⟨t, n, v, ht, hresp, hent, hl⟩ := exec_cacheRead_leaves_resident hcap hen ha
  exact ⟨t, _, v, ht, enabledReadOfResidentHits t a n v hent hl, hresp, rfl, rfl, rfl, rfl⟩

/-! ## The bypass (R101, R102, R111) -/

/-- R111: with the cache disabled a CACHE_READ is a MEM_READ, logged on the memory port. -/
theorem exec_cacheRead_disabled {s : State} (hen : s.cache.en = false) (a : Int) :
    ∃ t u, exec (.cacheRead a) s = .next t ∧ exec (.memRead a) s = .next u ∧ t.mem = u.mem ∧
      t.out.resp = u.out.resp ∧ t.cache = s.cache ∧ t.client = s.client := by
  have hop := cacheRead_of_disabled (s := s.withOut {}) hen a
  by_cases ha : s.mem.InBounds a
  · exact ⟨_, _, hostCommand_of_ok (hop.trans (portRead_of_inBounds ha)),
      hostCommand_of_ok (op := memoryRead a) (if_pos ha), rfl, rfl, rfl, rfl⟩
  · exact ⟨_, _, hostCommand_of_raise (hop.trans (portRead_of_outOfBounds ha)),
      hostCommand_of_raise (op := memoryRead a) (if_neg ha), rfl, rfl, rfl, rfl⟩

/-- R111: with the cache disabled a CACHE_WRITE is a MEM_WRITE of the same value, logged on the memory port. -/
theorem exec_cacheWrite_disabled {s : State} (hen : s.cache.en = false) (a : Int) (w : Word) :
    ∃ t u, exec (.cacheWrite a w) s = .next t ∧ exec (.memWrite a w.toInt) s = .next u ∧ t.mem = u.mem ∧
      t.out.resp = u.out.resp ∧ t.cache = s.cache ∧ t.client = s.client := by
  have hop := cacheWrite_of_disabled (s := s.withOut {}) hen a w
  by_cases ha : s.mem.InBounds a
  · exact ⟨_, _, hostCommand_of_ok (hop.trans (portWrite_of_inBounds (s := s.withOut {}) ha w)),
      hostCommand_of_ok (memoryWrite_toInt_of_inBounds (s := s.withOut {}) ha w), rfl, rfl, rfl, rfl⟩
  · exact ⟨_, _, hostCommand_of_raise (hop.trans (portWrite_of_outOfBounds (s := s.withOut {}) ha w)),
      hostCommand_of_raise (op := memoryWrite a w.toInt) (if_neg ha), rfl, rfl, rfl, rfl⟩

/-- Settles O33: the read and the write each leave and answer what the direct command does. -/
theorem disabledAccessIsDirectAccess : Obligations.DisabledAccessIsDirectAccess := by
  intro s a w hen
  obtain ⟨t, u, ht, hu, hmem, hresp, hcache, hclient⟩ := exec_cacheRead_disabled hen a
  obtain ⟨t', u', ht', hu', hmem', hresp', hcache', hclient'⟩ := exec_cacheWrite_disabled hen a w
  exact ⟨t, u, t', u', ht, hu, ht', hu', hmem, hresp, hcache, hclient, exec_sameMachine ht, hmem', hresp', hcache',
    hclient', exec_sameMachine ht'⟩

/-! ## Writes of distinct addresses (R103, R104) -/

/-- The newest `k` of a list do not depend on what an earlier cut to `k` took off its front. -/
theorem rtake_rtake_append {α : Type} (k : Nat) (l m : List α) : (l.rtake k ++ m).rtake k = (l ++ m).rtake k := by
  simp only [List.rtake_eq_reverse_take_reverse, List.reverse_append, List.reverse_reverse, List.take_append,
    List.take_take, Nat.min_eq_left (Nat.sub_le k _)]

/-- R103, R104: the install of a new address keeps the newest entries, as many as the capacity. -/
theorem insert_ent_of_absent {c : Cache} {a : Int} (hbounded : c.bounded) (habsent : ¬ c.resident a) (v : Word) :
    (c.insert a v).ent = (c.ent ++ [(⟨a, v⟩ : Entry)]).rtake c.capacity := by
  have happ : c.appended a v = c.ent ++ [⟨a, v⟩] := by rw [Cache.appended, removeTag_of_not_mem habsent]
  have hlen : (c.ent ++ [(⟨a, v⟩ : Entry)]).length = c.ent.length + 1 := List.length_append
  have hle : c.ent.length ≤ c.capacity := hbounded
  show (if c.capacity < (c.appended a v).length then (c.appended a v).tail else c.appended a v) = _
  rw [happ, List.rtake, hlen]
  split_ifs with hfull
  · rw [show c.ent.length + 1 - c.capacity = 1 by omega, List.drop_one]
  · rw [show c.ent.length + 1 - c.capacity = 0 by omega, List.drop_zero]

/-- R104: writes of distinct addresses that are not resident leave the newest entries, as many as the capacity: those of
the start, then the pairs in order. -/
theorem runAll_writes_of_absent : ∀ {pairs : List (Int × Word)} {s : State}, s.cache.en = true → s.cache.bounded →
    (pairs.map Prod.fst).Nodup → (∀ p ∈ pairs, ¬ s.cache.resident p.1) →
    ∃ t, runAll (pairs.map (fun p => .cacheWrite p.1 p.2)) s = some t ∧
      t.cache.ent = (s.cache.ent ++ pairs.map (fun p => (⟨p.1, p.2⟩ : Entry))).rtake s.cache.capacity ∧ t.mem = s.mem ∧
      ∀ b, b ∈ t.cache.dirty ↔ b ∈ pairs.map Prod.fst ∨ b ∈ s.cache.dirty
  | [], s, _, hbounded, _, _ => by
    refine ⟨s, rfl, ?_, rfl, by simp⟩
    rw [List.map_nil, List.append_nil, List.rtake, Nat.sub_eq_zero_of_le hbounded, List.drop_zero]
  | (a, w) :: pairs, s, hen, hbounded, hnodup, habsent => by
    obtain ⟨ha, hnodup'⟩ := List.nodup_cons.mp hnodup
    obtain ⟨t, ht, hent, hdirty, -, hen', hmem, -, ⟨-, -, -, -, -, hcap⟩, -⟩ :=
      enabledWriteInstallsAndMarksDirty s a w hen
    rw [← insert_ent] at hent
    have hbounded' : t.cache.bounded := by
      rw [Cache.bounded, hent, hcap]; exact insert_bounded hbounded a w
    have habsent' : ∀ p ∈ pairs, ¬ t.cache.resident p.1 := by
      intro p hp hres
      obtain ⟨e, he, hep⟩ := List.mem_map.mp hres
      rcases mem_of_mem_insert (hent ▸ he) with rfl | ⟨hold, -⟩
      · exact ha (List.mem_map.mpr ⟨p, hp, hep.symm⟩)
      · exact habsent p (List.mem_cons_of_mem _ hp) (List.mem_map.mpr ⟨e, hold, hep⟩)
    obtain ⟨u, hu, huent, humem, hudirty⟩ :=
      runAll_writes_of_absent (hen'.trans hen) hbounded' hnodup' habsent'
    refine ⟨u, (runAll_cons ht).trans hu, ?_, humem.trans hmem, fun b => ?_⟩
    · rw [huent, hcap, hent, insert_ent_of_absent hbounded (habsent (a, w) List.mem_cons_self), rtake_rtake_append,
        List.append_assoc]
      rfl
    · rw [hudirty, hdirty, List.map_cons, List.mem_cons, or_left_comm, or_assoc]

/-- Settles O36: of the `k + 1` pairs written the newest `k` stay. -/
theorem writingOneTooManyEvictsTheFirst : Obligations.WritingOneTooManyEvictsTheFirst := by
  intro s first others hen hempty hlen hnodup
  obtain ⟨t, ht, hent, hmem, hdirty⟩ := runAll_writes_of_absent hen (by simp [Cache.bounded, hempty]) hnodup
    (by simp [Cache.resident, hempty])
  refine ⟨t, ht, ?_, hmem, fun p hp => (hdirty p.1).mpr (.inl (List.mem_map_of_mem hp))⟩
  rw [hent, hempty, List.nil_append, ← hlen, List.map_cons, List.rtake, List.length_cons, List.length_map,
    Nat.add_sub_cancel_left, List.drop_one, List.tail_cons]

/-! ## The client's loads and stores (R140 to R142) -/

/-- R141: an LW whose `cache_read` completes, but for the request, transactions and events recorded in its outputs. -/
theorem execLw_of_ok {rt rs : Reg} {offset : Int} {s t : State} {v : Word}
    (h : cacheRead (effectiveAddress offset rs s) (s.withOut {}) = .ok v t) :
    ∃ o : Outputs, o.resp = some { rdata := some v } ∧
      execLw rt offset rs s = .next (advance (writeReg rt v (t.withOut o))) := by
  rw [execLw, issue, h]
  exact ⟨_, rfl, rfl⟩

/-- A register written by an instruction that then advances is seen in that register alone. -/
theorem regWritten_advance_writeReg {s t : State} (h : t.client.regs = s.client.regs) (rd : Reg) (v : Word) :
    regWritten rd v s (advance (writeReg rd v t)) := by
  intro r
  rw [readReg_congr (advance_client_regs _), readReg_writeReg, readReg_congr h]

/-- R142: a command of the client whose operation succeeds. -/
theorem clientCommand_of_ok {q : Request} {op : State → Res Unit} {s t : State} (h : op (s.withOut {}) = .ok () t) :
    clientCommand q op s =
      .next (advance (t.withOut { t.out with issued := some q, resp := some (respNone ()) })) := by
  rw [clientCommand, issue, h]

/-- R101: a read of an address in bounds or resident in an enabled cache completes, with the entry's data on a hit and
the stored word on a miss or a bypass. -/
theorem cacheRead_completes {s : State} {a : Int} (h : s.mem.InBounds a ∨ (s.cache.en = true ∧ s.cache.resident a)) :
    ∃ v t, cacheRead a s = .ok v t ∧
      (s.cache.en = true → ∀ n d, lookup a s.cache.ent = some (n, d) → v = d) ∧
      ((s.cache.en = false ∨ ¬ s.cache.resident a) → v = s.mem.word a) := by
  rcases cacheRead_cases a s with ⟨hen, e⟩ | ⟨n, v, hen, hl, e⟩ | ⟨hen, hl, -, e⟩ | ⟨hen, hl, hout, e⟩
  · have ha : s.mem.InBounds a := h.resolve_right fun ⟨hen', _⟩ => by simp [hen] at hen'
    exact ⟨_, _, e.trans (portRead_of_inBounds ha), fun hen' => by simp [hen] at hen', fun _ => rfl⟩
  · refine ⟨_, _, e, fun _ m d hd => ?_, ?_⟩
    · obtain ⟨-, rfl⟩ := Prod.mk.inj (Option.some.inj (hl.symm.trans hd))
      rfl
    · rintro (hen' | habsent)
      · simp [hen] at hen'
      · rw [lookup_eq_none.mpr habsent] at hl; cases hl
  · exact ⟨_, _, e, fun _ m d hd => absurd (hl.symm.trans hd) nofun, fun _ => rfl⟩
  · exact (h.elim hout fun ⟨_, hres⟩ => lookup_eq_none.mp hl hres).elim

/-- Settles O57: the read completes and leaves the client alone, and LW then writes the register and `pc`. -/
theorem loadWordLoadsWhatCacheReadAnswers : Obligations.LoadWordLoadsWhatCacheReadAnswers := by
  intro s rt rs offset h
  obtain ⟨v, u, hu, hhit, hword⟩ := cacheRead_completes (s := s.withOut {}) h
  have hframe := cacheRead_frame (effectiveAddress offset rs s) (s.withOut {})
  rw [show cacheRead (effectiveAddress offset rs s) (s.withOut {}) = .ok v u from hu] at hframe
  obtain ⟨hmem, ⟨hparams, -⟩, hdirty, hen, hclient⟩ := hframe
  rw [Res.state_ok] at hmem hparams hdirty hen hclient
  obtain ⟨o, ho, ht⟩ := execLw_of_ok (rt := rt) hu
  have hregs : (u.withOut o).client.regs = s.client.regs := congrArg Client.regs hclient
  refine ⟨_, v, ht, ?_, hhit, hword, regWritten_advance_writeReg hregs rt v, ?_, ?_, ?_, ?_, ?_,
    exec_sameMachine (i := .lw rt offset rs) ht⟩
  all_goals simp [ho, hclient, hparams, hmem, hdirty, hen]

/-- Settles O58: enabled, the write installs the pair; disabled, it is the write of one word of the store. Either way it
succeeds, and SW then writes `pc` alone. -/
theorem storeWordStoresTheRegister : Obligations.StoreWordStoresTheRegister := by
  intro s rt rs offset hm h
  cases hen : s.cache.en with
  | true =>
    have ht := clientCommand_of_ok (q := reqCacheWrite (effectiveAddress offset rs s) (readReg rt s))
      (cacheWrite_of_enabled (s := s.withOut {}) hen (effectiveAddress offset rs s) (readReg rt s))
    exact ⟨_, ht, fun _ => ⟨rfl, insert_ent _ _ _, fun _ => mem_addrInsert⟩, nofun, ⟨rfl, rfl, rfl, rfl⟩, hen, rfl, rfl,
      rfl, exec_sameMachine (i := .sw rt offset rs) ht⟩
  | false =>
    have ha : s.mem.InBounds (effectiveAddress offset rs s) := h.resolve_left (by simp [hen])
    have ht := clientCommand_of_ok (q := reqCacheWrite (effectiveAddress offset rs s) (readReg rt s))
      ((cacheWrite_of_disabled (s := s.withOut {}) hen (effectiveAddress offset rs s) (readReg rt s)).trans
        (portWrite_of_inBounds (s := s.withOut {}) ha (readReg rt s)))
    refine ⟨_, ht, nofun, fun _ => ⟨rfl, ?_, fun b hb hne => ?_⟩, ⟨rfl, rfl, rfl, rfl⟩, hen, rfl, rfl, rfl,
      exec_sameMachine (i := .sw rt offset rs) ht⟩
    · exact (word_setWord hm _ ha ha).trans (if_pos rfl)
    · exact (word_setWord hm _ ha hb).trans (if_neg hne)

end Sys2Proof.Machine

/-! PROOFS. The cache control family: a flush that succeeds; a sync or flush that fails; that neither looks at the enable
bit; the other control codes. -/

namespace Sys2Proof.Machine

/-! ## The rows that sync or flush (R123, R125, R127) -/

/-- R123, R127: CACHE_FLUSH and control code 2, by either row, are commands of the host that run the cache's `flush`. -/
theorem exec_flush {i : Instr} (hi : i = .cacheFlush ∨ i = .cacheControlFlush ∨ i = .cacheControl 2) :
    ∃ q, ∀ s, exec i s = hostCommand q respNone flushCache s := by
  rcases hi with rfl | rfl | rfl
  · exact ⟨reqCacheFlush, fun _ => rfl⟩
  · exact ⟨reqCacheControl 2, fun _ => rfl⟩
  · exact ⟨reqCacheControl 2, fun s => (exec_decodeControl 2 s).symm⟩

/-- The rows that sync or flush are commands of the host that run `sync_with_memory` or the cache's `flush`. -/
theorem exec_sync_or_flush {i : Instr}
    (hi : i = .syncWithMemory ∨ i = .cacheFlush ∨ i = .cacheControlFlush ∨ i = .cacheControl 2) :
    ∃ q op, (op = syncWithMemory ∨ op = flushCache) ∧ ∀ s, exec i s = hostCommand q respNone op s := by
  rcases hi with rfl | hi
  · exact ⟨reqSyncWithMemory, syncWithMemory, .inl rfl, fun _ => rfl⟩
  · obtain ⟨q, hexec⟩ := exec_flush hi
    exact ⟨q, flushCache, .inr rfl, hexec⟩

/-! ## A flush that succeeds (R127) -/

/-- R127: a flush is the sync's loop, and the dirty set and the entries cleared where the loop succeeds. -/
theorem flushCache_of_ok {s t : State} (h : writeBack s.cache.dirty s.cache.ent s = .ok () t) :
    flushCache s = .ok () (t.withCache { t.cache with dirty := [], ent := [] }) := by
  rw [flushCache, syncWithMemory_of_ok h, Res.bind_ok]
  rfl

/-- Settles O39: the loop is the sync's (O38), and it succeeds where each write-back is in bounds. -/
theorem flushSyncsAndEmpties : Obligations.FlushSyncsAndEmpties := by
  intro s i hm hu hs hi
  obtain ⟨q, hexec⟩ := exec_flush hi
  obtain ⟨t, ht, hwords, hcache, hclient, hsame, -⟩ := writeBack_of_canSync (s := s.withOut {}) hm hu hs
  have hnext := (hexec s).trans (hostCommand_of_ok (flushCache_of_ok ht))
  refine ⟨_, hnext, hwords, ?_, hclient, exec_sameMachine hnext, rfl⟩
  rw [withOut_cache, withCache_cache, hcache, withOut_cache]

/-! ## A sync or flush that fails (R126, R128) -/

/-- R126, R128: where the loop fails, a sync and a flush end with its error, in the state it leaves. -/
theorem sync_or_flush_of_raise {op : State → Res Unit} (hop : op = syncWithMemory ∨ op = flushCache) {s t : State}
    {e : Error} (h : writeBack s.cache.dirty s.cache.ent s = .raise e t) : op s = .raise e t := by
  have hsync : syncWithMemory s = .raise e t := by rw [syncWithMemory, h, Res.bind_raise]
  rcases hop with rfl | rfl
  · exact hsync
  · rw [flushCache, hsync, Res.bind_raise]

/-- R126: the loop stops at the oldest dirty entry that is out of bounds, with the older ones written. -/
theorem writeBack_of_failing {dirty : List Int} {older : List Entry} {e : Entry} {s : State}
    (hok : ∀ x ∈ older, x.tag ∈ dirty → s.mem.InBounds x.tag) (hd : e.tag ∈ dirty) (hb : ¬ s.mem.InBounds e.tag)
    (younger : List Entry) :
    ∃ t, writeBack dirty (older ++ e :: younger) s = .raise (.outOfBounds e.tag) t ∧
      t.mem = (writeBack dirty older s).state.mem := by
  obtain ⟨u, hu, -⟩ := writeBack_ok dirty older s hok
  obtain ⟨-, -, ⟨-, -, -, hcap, -⟩, -⟩ := writeBack_frame dirty older s
  have hub : ¬ u.mem.InBounds e.tag := by
    rw [hu, Res.state_ok] at hcap
    rwa [Memory.InBounds, hcap]
  exact ⟨_, by rw [writeBack_append, hu, Res.bind_ok, writeBack_fails hd hub], by rw [hu, logTxn_mem, Res.state_ok]⟩

/-- Settles O40: the loop writes the entries before the failing one and stops there, and neither operation goes on. -/
theorem failingSyncStopsHalfDone : Obligations.FailingSyncStopsHalfDone := by
  intro s i older e younger hm hu hent hok hd hb hi
  obtain ⟨q, op, hop, hexec⟩ := exec_sync_or_flush hi
  obtain ⟨t, ht, hmem⟩ := writeBack_of_failing (s := s.withOut {}) hok hd hb younger
  rw [← hent] at ht
  obtain ⟨hcache, hclient, -⟩ := writeBack_frame s.cache.dirty s.cache.ent (s.withOut {})
  rw [ht] at hcache hclient
  have hnext := (hexec s).trans (hostCommand_of_raise (sync_or_flush_of_raise hop ht))
  have holder : (older.map Entry.tag).Nodup := by
    rw [Cache.unique, hent, List.map_append] at hu
    exact hu.of_append_left
  refine ⟨_, hnext, rfl, fun x hx hxd => ?_, fun a ha hne => ?_, hcache, hclient, exec_sameMachine hnext⟩
  · rw [withOut_mem, hmem]
    exact writeBack_word_written s.cache.dirty older (s.withOut {}) hm holder hok x hx hxd
  · rw [withOut_mem, hmem]
    exact writeBack_word_other s.cache.dirty a older (s.withOut {}) hm ha hne

/-! ## A sync and a flush with the enable bit at either value (R131) -/

/-- The state with the enable bit at `b`. -/
def State.withEn (b : Bool) (s : State) : State := s.withCache { s.cache with en := b }

/-- The result an operation ends with, with the state it leaves changed by `f`. -/
def Res.mapState {α : Type} (f : State → State) : Res α → Res α
  | .ok a s => .ok a (f s)
  | .raise e s => .raise e (f s)

/-- The operation does not look at the enable bit, and leaves it as it is. -/
def IgnoresEn {α : Type} (op : State → Res α) : Prop :=
  ∀ (b : Bool) (s : State), op (s.withEn b) = (op s).mapState (State.withEn b)

theorem IgnoresEn.bind {α β : Type} {op : State → Res α} {f : α → State → Res β} (hop : IgnoresEn op)
    (hf : ∀ a, IgnoresEn (f a)) : IgnoresEn (fun s => (op s).bind f) := by
  intro b s
  dsimp only
  rw [hop b s]
  cases op s with
  | ok a t => exact hf a b t
  | raise e t => rfl

theorem portWrite_ignoresEn (a : Int) (w : Word) : IgnoresEn (portWrite a w) := by
  intro b s
  by_cases ha : s.mem.InBounds a
  · rw [portWrite_of_inBounds ha, portWrite_of_inBounds (s := s.withEn b) ha]
    rfl
  · rw [portWrite_of_outOfBounds ha, portWrite_of_outOfBounds (s := s.withEn b) ha]
    rfl

theorem writeBack_ignoresEn (dirty : List Int) : ∀ l : List Entry, IgnoresEn (writeBack dirty l)
  | [] => fun _ _ => rfl
  | e :: es => fun b s => by
    by_cases hd : e.tag ∈ dirty
    · simp only [writeBack, if_pos hd]
      exact (portWrite_ignoresEn e.tag e.data).bind (fun _ => writeBack_ignoresEn dirty es) b s
    · rw [writeBack_clean hd, writeBack_clean hd]
      exact writeBack_ignoresEn dirty es b s

theorem syncWithMemory_ignoresEn : IgnoresEn syncWithMemory := fun b s =>
  (writeBack_ignoresEn s.cache.dirty s.cache.ent).bind
    (f := fun _ t => .ok () (t.withCache { t.cache with dirty := [] })) (fun _ _ _ => rfl) b s

theorem flushCache_ignoresEn : IgnoresEn flushCache :=
  syncWithMemory_ignoresEn.bind (f := fun _ t => .ok () (t.withCache { t.cache with ent := [] })) (fun _ _ _ => rfl)

/-- A command of the host does not look at the enable bit where its operation does not. -/
theorem hostCommand_withEn {α : Type} {op : State → Res α} (hop : IgnoresEn op) (q : Request) (resp : α → Response)
    (b : Bool) (s : State) :
    ∃ t, hostCommand q resp op s = .next t ∧ hostCommand q resp op (s.withEn b) = .next (t.withEn b) := by
  have hb : op ((s.withEn b).withOut {}) = (op (s.withOut {})).mapState (State.withEn b) := hop b (s.withOut {})
  cases h : op (s.withOut {}) with
  | ok a t =>
    rw [h] at hb
    exact ⟨_, hostCommand_of_ok h, hostCommand_of_ok hb⟩
  | raise e t =>
    rw [h] at hb
    exact ⟨_, hostCommand_of_raise h, hostCommand_of_raise hb⟩

/-- Settles O42: the loop, the sync and the flush do not look at the enable bit, so neither does the command. -/
theorem syncAndFlushIgnoreTheEnableBit : Obligations.SyncAndFlushIgnoreTheEnableBit := by
  intro s b i hi
  obtain ⟨q, op, hop, hexec⟩ := exec_sync_or_flush hi
  have hignores : IgnoresEn op := by
    rcases hop with rfl | rfl
    · exact syncWithMemory_ignoresEn
    · exact flushCache_ignoresEn
  obtain ⟨t, ht, htb⟩ := hostCommand_withEn hignores q respNone b s
  exact ⟨t, (hexec s).trans ht, (hexec (s.withEn b)).trans htb⟩

/-! ## The other control codes (R121, R122, R124) -/

/-- R74, R120: the sub-row that a control code selects answers for the CACHE_CONTROL row too. -/
theorem exec_of_control_rows {i j : Instr} {c : Int} (hj : decodeControl c = j) (hi : i = j ∨ i = .cacheControl c)
    (s : State) : exec i s = exec j s := by
  rcases hi with rfl | rfl
  · rfl
  · rw [← hj]
    exact (exec_decodeControl c s).symm

/-- Settles O44: both rows of each code set the enable bit. -/
theorem disableAndEnableWriteOnlyTheEnableBit : Obligations.DisableAndEnableWriteOnlyTheEnableBit := by
  intro s
  refine ⟨fun i hi => ?_, fun i hi => ?_⟩
  · exact (exec_of_control_rows (c := 0) (j := .cacheControlDisable) rfl hi s).trans
      (hostCommand_of_ok (op := setEnabled false) rfl)
  · exact (exec_of_control_rows (c := 1) (j := .cacheControlEnable) rfl hi s).trans
      (hostCommand_of_ok (op := setEnabled true) rfl)

/-- R145: a command of the client whose operation fails halts the run with the error. -/
theorem clientCommand_of_raise {q : Request} {op : State → Res Unit} {s t : State} {e : Error}
    (h : op (s.withOut {}) = .raise e t) :
    clientCommand q op s = .next (takeError e (t.withOut
      { t.out with issued := some q, resp := some (respError e), events := t.out.events ++ [.error e] })) := by
  rw [clientCommand, issue, h]

/-- Settles O45: the operation of such a code raises the error and leaves the state. -/
theorem otherControlCodesAreInvalid : Obligations.OtherControlCodesAreInvalid := by
  intro s c h0 h1 h2
  have hc : ¬ isControlCode c := not_or.mpr ⟨h0, not_or.mpr ⟨h1, h2⟩⟩
  have hraise : cacheControl c (s.withOut {}) = .raise (.invalidControlCode c) (s.withOut {}) := by
    rw [cacheControl_of_invalid hc, invalidCode]
  refine ⟨fun i hi => ?_, clientCommand_of_raise hraise⟩
  exact (exec_of_control_rows (decodeControl_of_invalid hc) hi s).trans (hostCommand_of_raise (op := invalidCode c) rfl)

end Sys2Proof.Machine

/-! PROOFS. The access protocol family: LW, SW and CACHE as the commands they issue; what an error of theirs does to the
client; the loads and stores that leave the store's bounds; the control codes of CACHE. -/

namespace Sys2Proof.Machine

/-! ## The client's fields together -/

theorem advance_client (s : State) :
    (advance s).client = { s.client with pc := s.client.pc + s.params.instrSize } := rfl

theorem takeError_client (e : Error) (s : State) :
    (takeError e s).client = { s.client with halted := some (.error e) } := rfl

/-! ## The pass-through (R144) -/

/-- R144: `t` and `u` cannot be told apart by the store, the cache or what the ports carried. -/
abbrev sameBehindPort (t u : State) : Prop := t.mem = u.mem ∧ t.cache = u.cache ∧ t.out = u.out

/-- R142, R143: a command the client issues is behind the port what the host's command is. -/
theorem clientCommand_passesThrough (q : Request) (op : State → Res Unit) (s : State) :
    ∃ t u, clientCommand q op s = .next t ∧ hostCommand q respNone op s = .next u ∧ sameBehindPort t u := by
  rcases clientCommand_cases q op s with ⟨u, hu, e⟩ | ⟨x, u, hu, e⟩
  all_goals exact ⟨_, _, e, rfl, by rw [hu]; exact ⟨rfl, rfl, rfl⟩⟩

/-- What LW does with the answer to its `cache_read` (R141, R145). -/
theorem execLw_cases (rt : Reg) (offset : Int) (rs : Reg) (s : State) :
    (∃ v t, issue (reqCacheRead (effectiveAddress offset rs s)) respData
        (cacheRead (effectiveAddress offset rs s)) s = .ok v t ∧
      execLw rt offset rs s = .next (advance (writeReg rt v t))) ∨
    (∃ e t, issue (reqCacheRead (effectiveAddress offset rs s)) respData
        (cacheRead (effectiveAddress offset rs s)) s = .raise e t ∧
      execLw rt offset rs s = .next (takeError e t)) := by
  unfold execLw
  cases issue (reqCacheRead (effectiveAddress offset rs s)) respData (cacheRead (effectiveAddress offset rs s)) s with
  | ok v t => exact .inl ⟨v, t, rfl, rfl⟩
  | raise e t => exact .inr ⟨e, t, rfl, rfl⟩

/-- R141: the register that LW writes and the end of a run are on the client's side of the port. -/
theorem execLw_passesThrough (rt : Reg) (offset : Int) (rs : Reg) (s : State) :
    ∃ t u, execLw rt offset rs s = .next t ∧ execCacheRead (effectiveAddress offset rs s) s = .next u ∧
      sameBehindPort t u := by
  rcases execLw_cases rt offset rs s with ⟨v, u, hu, e⟩ | ⟨x, u, hu, e⟩
  · exact ⟨_, _, e, rfl, by rw [hu]; simp [sameBehindPort]⟩
  · exact ⟨_, _, e, rfl, by rw [hu]; exact ⟨rfl, rfl, rfl⟩⟩

/-- Settles O25: each of the three issues the host's request with the host's operation, and then writes the client
alone. -/
theorem protocolIsAPurePassThrough : Obligations.ProtocolIsAPurePassThrough := fun s =>
  ⟨fun rt offset rs => execLw_passesThrough rt offset rs s, fun _ _ _ => clientCommand_passesThrough _ _ s,
    fun _ => clientCommand_passesThrough _ _ s⟩

/-! ## An error of the client's command (R145, R160, R179) -/

/-- R71: a command that succeeds answers with its value. -/
theorem issue_resp_of_ok {α : Type} {q : Request} {resp : α → Response} {op : State → Res α} {s t : State} {a : α}
    (h : issue q resp op s = .ok a t) : t.out.resp = some (resp a) := by
  rcases issue_cases q resp op s with ⟨b, u, -, e⟩ | ⟨x, u, -, e⟩ <;> rw [e] at h <;> cases h
  rfl

/-- R71, R187: a command that fails answers with its error. -/
theorem issue_resp_of_raise {α : Type} {q : Request} {resp : α → Response} {op : State → Res α} {s t : State}
    {e : Error} (h : issue q resp op s = .raise e t) : t.out.resp = some (respError e) := by
  rcases issue_cases q resp op s with ⟨b, u, -, h'⟩ | ⟨x, u, -, h'⟩ <;> rw [h'] at h <;> cases h
  rfl

/-- R179: taking the error of a command that left the client alone changes the recorded end of the run and nothing else
of the client; the error is the one the response shows. -/
theorem takeError_client_of_issue {α : Type} {q : Request} {resp : α → Response} {op : State → Res α} {s t : State}
    {e x : Error} (hop : ∀ u, (op u).state.client = u.client) (h : issue q resp op s = .raise x t)
    (hresp : t.out.resp = some { error := some e }) :
    (takeError x t).client = { s.client with halted := some (.error e) } := by
  have hx : respError x = { error := some e } := Option.some.inj ((issue_resp_of_raise h).symm.trans hresp)
  have hclient := issue_client (q := q) (resp := resp) hop s
  rw [h, Res.state_raise] at hclient
  rw [takeError_client, hclient, Option.some.inj (congrArg Response.error hx)]

theorem clientCommand_halts_in_place {q : Request} {op : State → Res Unit} {s t : State} {e : Error}
    (hop : ∀ u, (op u).state.client = u.client) (h : clientCommand q op s = .next t)
    (hresp : t.out.resp = some { error := some e }) :
    t.client = { s.client with halted := some (.error e) } := by
  rcases clientCommand_cases q op s with ⟨u, hu, he⟩ | ⟨x, u, hu, he⟩ <;> rw [he] at h <;>
    obtain rfl := Host.Outcome.next.inj h
  · rw [advance_out, issue_resp_of_ok hu] at hresp
    cases hresp
  · exact takeError_client_of_issue hop hu hresp

/-- R141, R145: neither the destination register nor `pc` is written by an LW that fails. -/
theorem execLw_halts_in_place {rt rs : Reg} {offset : Int} {s t : State} {e : Error}
    (h : execLw rt offset rs s = .next t) (hresp : t.out.resp = some { error := some e }) :
    t.client = { s.client with halted := some (.error e) } := by
  have hop (u : State) := (cacheRead_frame (effectiveAddress offset rs s) u).2.2.2.2
  rcases execLw_cases rt offset rs s with ⟨v, u, hu, he⟩ | ⟨x, u, hu, he⟩ <;> rw [he] at h <;>
    obtain rfl := Host.Outcome.next.inj h
  · rw [advance_out, writeReg_out, issue_resp_of_ok hu] at hresp
    cases hresp
  · exact takeError_client_of_issue hop hu hresp

/-- Settles O26: the instructions that issue no command show no response (O24), and LW, SW and CACHE take the error of
their command in place. -/
theorem failingClientInstructionHaltsInPlace : Obligations.FailingClientInstructionHaltsInPlace := by
  intro i s t e hi h hresp
  have hissued := clientIssuesOnlyItsThreeCommands i s t hi h
  cases i with
  | lw => exact execLw_halts_in_place h hresp
  | sw => exact clientCommand_halts_in_place (fun u => (cacheWrite_frame _ _ u).2.1) h hresp
  | cache => exact clientCommand_halts_in_place (fun u => (cacheControl_frame _ u).2) h hresp
  | add | addi | sub | slt | bne | j | jal | halt =>
    obtain ⟨hout, -, -⟩ := hissued
    rw [hout] at hresp
    cases hresp
  | _ => cases hi

/-! ## Loads and stores out of bounds (R141, R142, R171) -/

/-- R101, R171: a read that neither hits nor is in bounds fails, and leaves the entries. -/
theorem cacheRead_fails {s : State} {a : Int} (ha : ¬ s.mem.InBounds a)
    (h : s.cache.en = false ∨ ¬ s.cache.resident a) :
    ∃ t, cacheRead a s = .raise (.outOfBounds a) t ∧ t.cache.ent = s.cache.ent := by
  cases hen : s.cache.en with
  | false => exact ⟨_, (cacheRead_of_disabled hen a).trans (portRead_of_outOfBounds ha), rfl⟩
  | true =>
    have habsent : ¬ s.cache.resident a := h.resolve_left (by simp [hen])
    exact ⟨_, cacheRead_of_failing_miss hen (lookup_eq_none.mpr habsent) ha, rfl⟩

/-- R141, R145: an LW whose `cache_read` fails, but for what its outputs record. -/
theorem execLw_of_raise {rt rs : Reg} {offset : Int} {s t : State} {e : Error}
    (h : cacheRead (effectiveAddress offset rs s) (s.withOut {}) = .raise e t) :
    ∃ o, execLw rt offset rs s = .next (takeError e (t.withOut o)) := by
  rw [execLw, issue, h]
  exact ⟨_, rfl⟩

theorem execLw_outOfBounds {s : State} {offset : Int} {rs : Reg}
    (ha : ¬ s.mem.InBounds (effectiveAddress offset rs s))
    (h : s.cache.en = false ∨ ¬ s.cache.resident (effectiveAddress offset rs s)) (rt : Reg) :
    ∃ t, execLw rt offset rs s = .next t ∧ t.mem = s.mem ∧ t.cache.ent = s.cache.ent ∧
      t.cache.dirty = s.cache.dirty ∧
      t.client = { s.client with halted := some (.error (.outOfBounds (effectiveAddress offset rs s))) } := by
  obtain ⟨u, hu, hent⟩ := cacheRead_fails (s := s.withOut {}) ha h
  obtain ⟨hmem, -, hdirty, -, hclient⟩ := cacheRead_frame (effectiveAddress offset rs s) (s.withOut {})
  rw [hu, Res.state_raise] at hmem hdirty hclient
  obtain ⟨o, ht⟩ := execLw_of_raise (rt := rt) hu
  refine ⟨_, ht, hmem, hent, hdirty, ?_⟩
  rw [takeError_client, withOut_client, hclient, withOut_client]

theorem execSw_outOfBounds {s : State} {offset : Int} {rs : Reg}
    (ha : ¬ s.mem.InBounds (effectiveAddress offset rs s)) (hen : s.cache.en = false) (rt : Reg) :
    ∃ t, execSw rt offset rs s = .next t ∧ t.mem = s.mem ∧ t.cache = s.cache ∧
      t.client = { s.client with halted := some (.error (.outOfBounds (effectiveAddress offset rs s))) } :=
  ⟨_, clientCommand_of_raise ((cacheWrite_of_disabled (s := s.withOut {}) hen _ _).trans
    (portWrite_of_outOfBounds (s := s.withOut {}) ha (readReg rt s))), rfl, rfl, rfl⟩

/-- Settles O59: both accesses reach the memory port, whose answer is the error that halts the run. -/
theorem outOfBoundsLoadAndStoreHalt : Obligations.OutOfBoundsLoadAndStoreHalt := fun _ rt _ _ ha =>
  ⟨fun h => execLw_outOfBounds ha h rt, fun hen => execSw_outOfBounds ha hen rt⟩

/-! ## CACHE (R143) -/

/-- R121, R122: CACHE with a code that sets the enable bit. -/
theorem execCache_setEnabled {c : Int} {b : Bool} (hc : cacheControl c = setEnabled b) (s : State) :
    ∃ t, exec (.cache c) s = .next t ∧ t.cache = { s.cache with en := b } ∧ t.mem = s.mem ∧
      t.client = { s.client with pc := s.client.pc + s.params.instrSize } ∧ sameMachine s t := by
  have ht : exec (.cache c) s = .next _ := clientCommand_of_ok (congrFun hc (s.withOut {}))
  exact ⟨_, ht, rfl, rfl, rfl, exec_sameMachine ht⟩

/-- R123, R127: CACHE with code 2, where the flush can write each dirty resident address back. -/
theorem execCache_flush {s : State} (hm : s.mem.wf) (hu : s.cache.unique) (hs : s.canSync) :
    ∃ t, exec (.cache 2) s = .next t ∧ t.cache = { s.cache with dirty := [], ent := [] } ∧ syncedWords s t ∧
      t.client = { s.client with pc := s.client.pc + s.params.instrSize } ∧ sameMachine s t := by
  obtain ⟨u, hloop, hwords, hcache, hclient, ⟨hparams, -⟩, -⟩ := writeBack_of_canSync (s := s.withOut {}) hm hu hs
  have ht : exec (.cache 2) s = .next _ := clientCommand_of_ok (op := cacheControl 2) (flushCache_of_ok hloop)
  refine ⟨_, ht, ?_, hwords, ?_, exec_sameMachine ht⟩
  · rw [advance_cache, withOut_cache, withCache_cache, hcache, withOut_cache]
  · rw [advance_client, withOut_client, withCache_client, hclient, withOut_params, withCache_params, hparams]
    rfl

/-- R124, R145: CACHE with any other code is in place but for the end of the run (O45). -/
theorem execCache_invalid {c : Int} (h0 : c ≠ 0) (h1 : c ≠ 1) (h2 : c ≠ 2) (s : State) :
    ∃ t, exec (.cache c) s = .next t ∧ t.cache = s.cache ∧ t.mem = s.mem ∧
      t.client = { s.client with halted := some (.error (.invalidControlCode c)) } ∧ sameMachine s t := by
  obtain ⟨-, ht⟩ := otherControlCodesAreInvalid s c h0 h1 h2
  exact ⟨_, ht, rfl, rfl, rfl, exec_sameMachine ht⟩

/-- Settles O60, by the control code. -/
theorem cacheInstructionControlsTheCache : Obligations.CacheInstructionControlsTheCache := fun s =>
  ⟨execCache_setEnabled rfl s, execCache_setEnabled rfl s, execCache_flush, fun _ h0 h1 h2 =>
    execCache_invalid h0 h1 h2 s⟩

end Sys2Proof.Machine

/-! PROOFS. The client context family: the client's line fetched and run, and the end of the stream; the arithmetic
instructions and SLT as the write of one register; BNE as the write of `pc` alone; J and HALT. -/

namespace Sys2Proof.Machine

/-! ## The client's fetch (R150, R161) -/

theorem fetchClient_of_line {s : State} {l : Line} (hpc : pcDefined s) (hl : s.prog[lineIndex s]? = some l) :
    fetchClient s = fetchLine l s := by
  simp only [fetchClient, if_pos hpc, hl]

theorem fetchLine_of_decode {l : Line} {i : Instr} (h : decode (.line l) = .ok i) (s : State) :
    fetchLine l s = .run i s := by
  simp only [fetchLine, decodeLine_of_decode h]

/-- R161: past the end of the stream the fetch ends the run. -/
theorem fetchClient_of_exhausted {s : State} (hpc : pcDefined s) (hend : s.prog.length ≤ lineIndex s) :
    fetchClient s = .done (haltRun .exhausted (idlePorts s)) := by
  simp only [fetchClient, if_pos hpc, List.getElem?_eq_none hend]

/-- Settles O8: the client's turn is its fetch, which takes the line that `pc` selects and decodes it. -/
theorem stepRunsClientLine : Obligations.StepRunsClientLine := by
  intro s l i hturns hrun hpc hl hdecode
  have hline : fetchClient (s.withTurns s.turns.tail) = fetchLine l (s.withTurns s.turns.tail) :=
    fetchClient_of_line hpc hl
  rw [step, fetch_of_client hturns hrun, hline, fetchLine_of_decode hdecode]

/-- Settles O10: the fetch itself ends the run, before any instruction that could write or flush. -/
theorem exhaustedStreamHaltsTheRun : Obligations.ExhaustedStreamHaltsTheRun := by
  intro s hturns hrun hpc hend
  have hdone : fetchClient (s.withTurns s.turns.tail) =
      .done (haltRun .exhausted (idlePorts (s.withTurns s.turns.tail))) := fetchClient_of_exhausted hpc hend
  rw [step, fetch_of_client hturns hrun, hdone]
  rfl

/-! ## A result written to a register (R151 to R154, R160, R162) -/

/-- `t` is `s` after an instruction that writes `w` to `rd`, advances and issues no command. -/
abbrev resultWritten (rd : Reg) (w : Word) (s t : State) : Prop :=
  regWritten rd w s t ∧ t.client.pc = s.client.pc + s.params.instrSize ∧ t.client.halted = s.client.halted ∧
    t.mem = s.mem ∧ t.cache = s.cache ∧ sameMachine s t ∧ t.out = {}

theorem resultWritten_advance_writeReg (rd : Reg) (w : Word) (s : State) :
    resultWritten rd w s (advance (writeReg rd w (idlePorts s))) := by
  refine ⟨regWritten_advance_writeReg rfl rd w, ?_⟩
  simp [sameMachine]

/-- R151 to R153: ADD, ADDI and SUB differ in the exact result only. -/
theorem exec_arithmetic {rd rs rt : Reg} {imm : Int} {i : Instr} {v : Int} {s : State}
    (h : (i, v) = (.add rd rs rt, regValue rs s + regValue rt s) ∨ (i, v) = (.addi rd rs imm, regValue rs s + imm) ∨
      (i, v) = (.sub rd rs rt, regValue rs s - regValue rt s)) :
    exec i s = writeResult rd v s := by
  rcases h with h | h | h <;> obtain ⟨rfl, rfl⟩ := Prod.mk.inj h <;> rfl

/-- Settles O52, by whether the exact result fits a word. -/
theorem arithmeticWritesTheExactResult : Obligations.ArithmeticWritesTheExactResult := by
  intro s rd rs rt imm i v hi
  rw [exec_arithmetic hi]
  rcases writeResult_cases rd v s with ⟨hfits, e⟩ | ⟨hwide, e⟩
  · exact ⟨fun _ _ => ⟨_, _, toInt_ofInt_of_fits hfits, e, resultWritten_advance_writeReg rd _ s⟩,
      fun hout => absurd hfits (by simp only [fitsWord]; omega)⟩
  · exact ⟨fun hlo hhi => absurd ⟨hlo, hhi⟩ hwide, fun _ => e⟩

/-- Settles O53: the word written is the truth value of the signed comparison. -/
theorem sltComparesSigned : Obligations.SltComparesSigned := by
  intro s rd rs rt
  refine ⟨_, _, rfl, ?_, resultWritten_advance_writeReg rd _ s⟩
  split <;> rfl

/-! ## Control transfers (R155, R156, R158, R160) -/

/-- Registers are equal as signed integers just where they are equal as words. -/
theorem regValue_eq_iff {rs rt : Reg} {s : State} : regValue rs s = regValue rt s ↔ readReg rs s = readReg rt s :=
  BitVec.toInt_inj

/-- R155: either way BNE writes `pc` alone. -/
theorem exec_bne (rs rt : Reg) (offset : Int) (s : State) :
    exec (.bne rs rt offset) s =
      .next (setPc (if readReg rs s = readReg rt s then s.client.pc + s.params.instrSize else branchTarget offset s)
        (idlePorts s)) := by
  show execBne rs rt offset s = _
  unfold execBne
  by_cases h : readReg rs s = readReg rt s
  · rw [if_neg (not_not.mpr (regValue_eq_iff.mpr h)), if_pos h]
    rfl
  · rw [if_pos (mt regValue_eq_iff.mp h), if_neg h]

theorem branchTarget_of_self {s : State} (h : s.params.branchBase = .self) (offset : Int) :
    branchTarget offset s = s.client.pc + offset * s.params.instrSize := by
  simp only [branchTarget, branchBase, h]

theorem branchTarget_of_next {s : State} (h : s.params.branchBase = .next) (offset : Int) :
    branchTarget offset s = s.client.pc + s.params.instrSize + offset * s.params.instrSize := by
  simp only [branchTarget, branchBase, h]

/-- Settles O54: the `pc` that BNE writes, by the condition and the branch base. -/
theorem bneBranchesWhenDifferent : Obligations.BneBranchesWhenDifferent := by
  intro s rs rt offset
  refine ⟨_, exec_bne rs rt offset s, fun hne => ⟨fun hbase => ?_, fun hbase => ?_⟩, fun heq => ?_, rfl, rfl, rfl, rfl,
    exec_sameMachine (exec_bne rs rt offset s), rfl⟩
  · rw [setPc_client_pc, if_neg hne, branchTarget_of_self hbase]
  · rw [setPc_client_pc, if_neg hne, branchTarget_of_next hbase]
  · rw [setPc_client_pc, if_pos heq]

/-- Settles O55: J is one write of `pc`, HALT one of the recorded end of the run. -/
theorem jumpAndHalt : Obligations.JumpAndHalt := fun _ _ => ⟨rfl, rfl⟩

end Sys2Proof.Machine

/-! PROOFS. The exceptions family: the client's line that does not decode. -/

namespace Sys2Proof.Machine

/-- R174, R175: at a line that does not decode the fetch itself takes the error, and no instruction runs. -/
theorem fetchLine_of_error {l : Line} {e : LineError} (h : decodeLine l = .error e) (s : State) :
    fetchLine l s = .done (takeError (lineError e) (idlePorts s)) := by
  simp only [fetchLine, h]

/-- Settles O9: the client's turn is its fetch, which takes the error of the line that `pc` selects; the two kinds of
decode error differ in what they record only (R188). -/
theorem undecodableLineHaltsTheRun : Obligations.UndecodableLineHaltsTheRun := by
  intro s l e hturns hrun hpc hl herror
  have hline : fetchClient (s.withTurns s.turns.tail) = fetchLine l (s.withTurns s.turns.tail) :=
    fetchClient_of_line hpc hl
  rw [step, fetch_of_client hturns hrun, hline, fetchLine_of_error herror]
  cases e with
  | unknownOperation op => rfl
  | malformedInstruction m => rfl

end Sys2Proof.Machine

/-! PROOFS. The reset and hazards family: the older value that the cache keeps behind a bypass write. -/

namespace Sys2Proof.Machine

/-! ## A bypass write behind a resident entry (R102, R121, R211, R213) -/

/-- R102: with the cache disabled a CACHE_WRITE in bounds writes the store and leaves the cache as it was. -/
theorem exec_cacheWrite_bypass {s : State} {a : Int} (hen : s.cache.en = false) (ha : s.mem.InBounds a) (w : Word) :
    ∃ t, exec (.cacheWrite a w) s = .next t ∧ t.mem = s.mem.setWord a w ∧ t.cache = s.cache :=
  ⟨_, hostCommand_of_ok ((cacheWrite_of_disabled (s := s.withOut {}) hen a w).trans
    (portWrite_of_inBounds (s := s.withOut {}) ha w)), rfl, rfl⟩

/-- R211: a disable and then a write put the new word in the store and leave the entries and the dirty set. -/
theorem runAll_disable_write {s : State} {a : Int} (ha : s.mem.InBounds a) (w : Word) :
    ∃ t, (∀ is, runAll (.cacheControlDisable :: .cacheWrite a w :: is) s = runAll is t) ∧
      t.mem = s.mem.setWord a w ∧ t.cache = { s.cache with en := false } := by
  obtain ⟨d, hdisable, hdmem, hdcache⟩ : ∃ d, exec .cacheControlDisable s = .next d ∧ d.mem = s.mem ∧
      d.cache = { s.cache with en := false } :=
    ⟨_, (disableAndEnableWriteOnlyTheEnableBit s).1 _ (.inl rfl), rfl, rfl⟩
  obtain ⟨t, hwrite, hmem, hcache⟩ := exec_cacheWrite_bypass (by rw [hdcache]) (hdmem ▸ ha) w
  exact ⟨t, fun is => (runAll_cons hdisable).trans (runAll_cons hwrite), hdmem ▸ hmem, hcache.trans hdcache⟩

/-- R211: the enable leaves the entry, so the read hits it (O29) and the store is not looked at. -/
theorem runAll_enable_read {s : State} {a : Int} {n : Nat} {v : Word} (hl : lookup a s.cache.ent = some (n, v)) :
    ∃ t, runAll [.cacheControlEnable, .cacheRead a] s = some t ∧ t.mem = s.mem ∧
      t.out.resp = some { rdata := some v } := by
  have henable := (disableAndEnableWriteOnlyTheEnableBit s).2 _ (.inl rfl)
  exact ⟨_, (runAll_cons henable).trans (runAll_cons (enabledReadOfResidentHits _ a n v rfl hl)), rfl, rfl⟩

/-- R213: a flush that succeeds puts the data of a dirty entry in the store, whatever the store held. -/
theorem runAll_flush_writes_entry {s : State} {e : Entry} (hm : s.mem.wf) (hu : s.cache.unique) (hs : s.canSync)
    (he : e ∈ s.cache.ent) (hd : e.tag ∈ s.cache.dirty) :
    ∃ t, runAll [.cacheControlFlush] s = some t ∧ t.mem.word e.tag = e.data := by
  obtain ⟨t, ht, ⟨hwritten, -⟩, -⟩ := flushSyncsAndEmpties s .cacheControlFlush hm hu hs (.inr (.inl rfl))
  exact ⟨t, runAll_cons ht, hwritten e he hd⟩

/-- Settles O43: the disable and the write leave the older entry, dirty, in the cache; from there an enabled read
answers it, and a flush writes it over the new word. -/
theorem olderCachedValueWinsAfterBypass : Obligations.OlderCachedValueWinsAfterBypass := by
  intro s a n old new hm hu hs ha hl hd
  obtain ⟨u, hprefix, hmem, hcache⟩ := runAll_disable_write ha new
  constructor
  · obtain ⟨t, ht, htmem, hresp⟩ := runAll_enable_read (s := u) (by rw [hcache]; exact hl)
    refine ⟨t, (hprefix _).trans ht, ?_, hresp⟩
    rw [htmem, hmem, word_setWord hm new ha ha, if_pos rfl]
  · have hum : u.mem.wf := hmem ▸ wf_setWord hm new ha
    have huu : u.cache.unique := by rw [hcache]; exact hu
    have hus : u.canSync := by rw [State.canSync, hcache, hmem]; exact hs
    have hentry : ⟨a, old⟩ ∈ u.cache.ent := by rw [hcache]; exact List.mem_of_getElem? (getElem?_of_lookup hl)
    obtain ⟨t, ht, hword⟩ := runAll_flush_writes_entry hum huu hus hentry (by rw [hcache]; exact hd)
    exact ⟨t, (hprefix _).trans ht, hword⟩

end Sys2Proof.Machine
